-- ==== Sys2Proof/Word.lean ====
section
/-! DEFINITION. The word types of the block (00_scope.md R8, R9): what the spec treats as bits. -/

namespace Sys2Proof

/-- An 8-bit field or register (`u8`), 00_scope.md R9. -/
abbrev Byte := BitVec 8

/-- A 16-bit field or register (`u16`), 00_scope.md R9. -/
abbrev Half := BitVec 16

/-- A 32-bit word: a command word (30_encoding.md R70), or ERR_SUM (10_state.md R24). -/
abbrev Word := BitVec 32

/-- A 64-bit word: response data (30_encoding.md R80) and the debug terms (10_state.md R36). -/
abbrev Dword := BitVec 64

end Sys2Proof
end

