-- ==== Sys2Proof/Config.lean ====
section
/-! DEFINITION. The implementation parameters (00_scope.md R6, R7) and the free values of the model. -/

namespace Sys2Proof

/-- The byte order of the 2-byte fields of the external store (00_scope.md R7, `NV_BYTE_ORDER`). -/
inductive ByteOrder where
  | little
  | big
deriving DecidableEq, Repr, Inhabited

/-- A legal configuration of the block: the four constants of 00_scope.md R6 with exactly R6's
constraints, and the further parameters of R7. A configuration that violates a constraint cannot be
built (93_implementation_defined.md U4: it is refused). The field defaults only show Lean that a legal
configuration exists; they are not values of the hardware (91_not_in_source.md N2), and nothing in the
model takes them: the device's configuration is the opaque `Config.device`. Log entries 1, 3 and 4. -/
structure Config where
  /-- `MAX_ERROR_SUM`, the bound of the integral accumulator. -/
  maxErrorSum : Nat := 0
  /-- `MIN_OUTPUT`, the lower saturation bound. -/
  minOutput : Nat := 0
  /-- `MAX_OUTPUT`, the upper saturation bound. -/
  maxOutput : Nat := 0
  /-- `SCALING_FACTOR`, the divisor of the sum of the three terms. -/
  scalingFactor : Nat := 1
  /-- `HAS_DEBUG`: whether DBG_E, DBG_P, DBG_I, DBG_D exist (10_state.md R36). -/
  hasDebug : Bool := false
  /-- `TICK_PERIOD`, in a unit the spec does not name; no rule reads it (60_exceptions.md R191). -/
  tickPeriod : Nat := 1
  /-- `NV_BYTE_ORDER`; no rule of the block reads it (20_memory.md R58). -/
  nvByteOrder : ByteOrder := .little
  maxErrorSum_le : maxErrorSum ≤ 2 ^ 31 - 1 := by decide
  minOutput_le_maxOutput : minOutput ≤ maxOutput := by decide
  maxOutput_le : maxOutput ≤ 255 := by decide
  one_le_scalingFactor : 1 ≤ scalingFactor := by decide
  scalingFactor_le : scalingFactor ≤ 2 ^ 31 - 1 := by decide
  tickPeriod_pos : 0 < tickPeriod := by decide
deriving DecidableEq, Repr, Inhabited

/-- The configuration the block was built with: a legal one, and nothing more is known of it (the
spec leaves the values open, 92_eei_decisions.md D17, D19, D23, D27). DESIGN CHOICE, log entry 1. -/
opaque Config.device : Config

/-- What the environment presents on the input ports at one instant (20_memory.md R59). Events in one
record coincide (60_exceptions.md R194); events in successive records follow one another. -/
structure Instant where
  /-- RST: a hard reset event. -/
  rst : Bool
  /-- TICK: one expiry of the timer. -/
  tick : Bool
  /-- CMD: the command word the host issues, if it issues one. -/
  cmd : Option Word
  /-- PV_IN: the value the sample source answers with, should the command ask (20_memory.md R56). -/
  pvIn : Byte
deriving DecidableEq, Repr, Inhabited

/-- The instants the environment gives once no placed one is left, in order, without end: a free value. Any sequence,
finite (then instants at which nothing happens) or infinite, is admitted, and nothing more is known of it
(60_exceptions.md R191, 20_memory.md R60). DESIGN CHOICE, log entry 5. -/
opaque Config.environment : Nat → Instant

/-- What stands on the PV_IN port at hard reset, before the environment presents anything: a free
value (20_memory.md R56). DESIGN CHOICE, log entry 7. -/
opaque Config.pvInAtReset : Byte

end Sys2Proof
end

