-- ==== Sys2Proof/Syntax.lean ====
section
/-! DEFINITION. The commands of the block (30_encoding.md R74), the registers they name (10_state.md R29)
and the statuses they answer (30_encoding.md R80), as syntax. -/

namespace Sys2Proof

/-- The six commands, one constructor per row of the opcode table (30_encoding.md R74). The operand
fields are the raw fields of the word (R71, R75): their values are checked when the command runs
(60_exceptions.md R188 steps 3 to 5), not when it is decoded. -/
inductive Instr where
  /-- `SETMODE m`, with `m = zext_16(imm)` (40_mode_reset.md R103). -/
  | setmode (imm : Half)
  /-- `RESET` (40_mode_reset.md R100). -/
  | reset
  /-- `CYCLE` (41_cycle_control_law.md R120). -/
  | cycle
  /-- `SETOUT u`, with `u = sext_16(imm)` (42_output_stage.md R152). -/
  | setout (imm : Half)
  /-- `RD r`, with `r = ra` (43_register_access.md R165). -/
  | rd (ra : Byte)
  /-- `WR r, v`, with `r = ra` and `v = zext_16(imm)` (43_register_access.md R168). -/
  | wr (ra : Byte) (imm : Half)
deriving DecidableEq, Repr

/-- The names of the register map (10_state.md R29). `status` is a view of SRF (R31). -/
inductive Reg where
  | setpoint | mode | gainP | gainI | gainD | pv | lastPv | errSum | output | status
  | dbgE | dbgP | dbgI | dbgD
deriving DecidableEq, Repr

/-- The response statuses (30_encoding.md R80, 60_exceptions.md R182 to R186). -/
inductive Status where
  /-- Accepted and executed in full. -/
  | ok
  /-- No command has this opcode (60_exceptions.md R182). -/
  | errOpcode
  /-- A must-be-zero field is not zero (60_exceptions.md R183). -/
  | errField
  /-- The index names no implemented register (60_exceptions.md R184). -/
  | errReg
  /-- The register is implemented and not writable (60_exceptions.md R185). -/
  | errRo
  /-- The operand value is outside its range (60_exceptions.md R186). -/
  | errRange
deriving DecidableEq, Repr

end Sys2Proof
end

