-- ==== Sys2Proof/Machine/Operands.lean ====
section
/-! DEFINITION. Operand forms: the immediate (30_encoding.md R75), the register index space
(20_memory.md R51, 10_state.md R29) and the operand checks (60_exceptions.md R184 to R186). -/

namespace Sys2Proof.Machine

/-- `sext_16(imm)` (00_scope.md R10): the immediate as a signed integer. -/
def sext16 (imm : Half) : Int := imm.toInt

/-- `zext_16(imm)` (00_scope.md R10): the immediate as an unsigned integer. -/
def zext16 (imm : Half) : Nat := imm.toNat

/-- The index of a register (10_state.md R29). -/
def regIndex : Reg → Byte
  | .setpoint => 0x00
  | .mode => 0x01
  | .gainP => 0x02
  | .gainI => 0x03
  | .gainD => 0x04
  | .pv => 0x05
  | .lastPv => 0x06
  | .errSum => 0x07
  | .output => 0x08
  | .status => 0x09
  | .dbgE => 0x0A
  | .dbgP => 0x0B
  | .dbgI => 0x0C
  | .dbgD => 0x0D

/-- The register that an index names when every optional register exists (10_state.md R29). -/
def regAt (ra : Byte) : Option Reg :=
  match ra.toNat with
  | 0x00 => some .setpoint
  | 0x01 => some .mode
  | 0x02 => some .gainP
  | 0x03 => some .gainI
  | 0x04 => some .gainD
  | 0x05 => some .pv
  | 0x06 => some .lastPv
  | 0x07 => some .errSum
  | 0x08 => some .output
  | 0x09 => some .status
  | 0x0A => some .dbgE
  | 0x0B => some .dbgP
  | 0x0C => some .dbgI
  | 0x0D => some .dbgD
  | _ => none

/-- Whether a register is one of the four optional capture registers (10_state.md R36). -/
def isDebugReg : Reg → Bool
  | .dbgE | .dbgP | .dbgI | .dbgD => true
  | _ => false

/-- The implemented register that an index names (20_memory.md R51): the capture registers only when
HAS_DEBUG, and no register from 0x0E on. -/
def implementedReg (hasDebug : Bool) (ra : Byte) : Option Reg :=
  match regAt ra with
  | some r => if isDebugReg r && !hasDebug then none else some r
  | none => none

/-- The five registers `WR` may write (43_register_access.md R168). -/
def regWritable : Reg → Bool
  | .setpoint | .mode | .gainP | .gainI | .gainD => true
  | _ => false

/-- The width of a register in bits (10_state.md R29). -/
def regWidth : Reg → Nat
  | .setpoint | .mode | .pv | .lastPv | .output | .status => 8
  | .gainP | .gainI | .gainD | .dbgE => 16
  | .errSum => 32
  | .dbgP | .dbgI | .dbgD => 64

/-- Whether a register is signed (10_state.md R29). -/
def regSigned : Reg → Bool
  | .errSum | .dbgE | .dbgP | .dbgI | .dbgD => true
  | _ => false

/-- `WR`'s range check (43_register_access.md R168): a value over 255 does not fit SETPOINT or MODE;
every 16-bit value fits a gain. -/
def wrInRange (r : Reg) (imm : Half) : Bool :=
  match r with
  | .setpoint | .mode => zext16 imm ≤ 255
  | _ => true

/-- `SETMODE`'s range check (40_mode_reset.md R103): the mode code is 0 or 1. -/
def setmodeInRange (imm : Half) : Bool := zext16 imm ≤ 1

/-- The status `RD`'s operand check gives (60_exceptions.md R188 step 3). -/
def rdStatus (hasDebug : Bool) (ra : Byte) : Status :=
  match implementedReg hasDebug ra with
  | none => .errReg
  | some _ => .ok

/-- The status `WR`'s operand checks give, in the order of 60_exceptions.md R188 steps 3 to 5. -/
def wrStatus (hasDebug : Bool) (ra : Byte) (imm : Half) : Status :=
  match implementedReg hasDebug ra with
  | none => .errReg
  | some r =>
    if !regWritable r then .errRo
    else if !wrInRange r imm then .errRange
    else .ok

/-- The status `SETMODE`'s operand check gives (60_exceptions.md R188 step 5). -/
def setmodeStatus (imm : Half) : Status := if setmodeInRange imm then .ok else .errRange

end Sys2Proof.Machine
end

