-- ==== Sys2Proof/WellFormed.lean ====
section
/-! DEFINITION. Well-formed commands: in-range operands and implemented registers, which is what the spec asks of
a host program that is never rejected (60_exceptions.md R197). -/

namespace Sys2Proof

/-- A command whose operands pass every check of 60_exceptions.md R188 steps 3 to 5. Whether the debug
registers count as implemented depends on HAS_DEBUG (20_memory.md R51). The checks are written here on
the fields themselves, not through the machine's own status functions. -/
def WellFormed (hasDebug : Bool) : Instr → Bool
  | .setmode imm => imm == 0x0000 || imm == 0x0001
  | .reset => true
  | .cycle => true
  | .setout _ => true
  | .rd ra => ra.toNat ≤ 0x09 || (hasDebug && ra.toNat ≤ 0x0D)
  | .wr ra imm => (ra.toNat ≤ 0x01 && imm.toNat ≤ 0xFF) || (0x02 ≤ ra.toNat && ra.toNat ≤ 0x04)

end Sys2Proof
end

