-- ==== Sys2Proof/Decode.lean ====
section
/-! DEFINITION. Decoding and encoding of command words (30_encoding.md R70 to R78). -/

namespace Sys2Proof

/-- Why a word selects no command. -/
inductive DecodeError where
  /-- The opcode is 0x00 or 0x07 to 0xFF (30_encoding.md R76). -/
  | illegalOpcode
  /-- The opcode is legal and a must-be-zero field is not zero (30_encoding.md R77). -/
  | reservedField
deriving DecidableEq, Repr

/-- The status that answers such a word (60_exceptions.md R182, R183). -/
def DecodeError.status : DecodeError → Status
  | .illegalOpcode => .errOpcode
  | .reservedField => .errField

/-- `CW[31:24]` (30_encoding.md R71). -/
def opField (w : Word) : Byte := w.extractLsb' 24 8

/-- `CW[23:16]` (30_encoding.md R71). -/
def raField (w : Word) : Byte := w.extractLsb' 16 8

/-- `CW[15:0]` (30_encoding.md R71). -/
def immField (w : Word) : Half := w.extractLsb' 0 16

/-- The instruction a word selects, or why it selects none: total on the 2^32 words
(30_encoding.md R78). The opcode is checked first, then the must-be-zero fields
(60_exceptions.md R188 steps 1 and 2). -/
def decode (w : Word) : Except DecodeError Instr :=
  match (opField w).toNat with
  | 0x01 => if raField w = 0 then .ok (.setmode (immField w)) else .error .reservedField
  | 0x02 => if raField w = 0 ∧ immField w = 0 then .ok .reset else .error .reservedField
  | 0x03 => if raField w = 0 ∧ immField w = 0 then .ok .cycle else .error .reservedField
  | 0x04 => if raField w = 0 then .ok (.setout (immField w)) else .error .reservedField
  | 0x05 => if immField w = 0 then .ok (.rd (raField w)) else .error .reservedField
  | 0x06 => .ok (.wr (raField w) (immField w))
  | _ => .error .illegalOpcode

/-- `{op, ra, imm}` with `op` most significant (30_encoding.md R71). -/
def packWord (op ra : Byte) (imm : Half) : Word := op ++ ra ++ imm

/-- The word of an instruction (30_encoding.md R73, R74). -/
def encode : Instr → Word
  | .setmode imm => packWord 0x01 0x00 imm
  | .reset => packWord 0x02 0x00 0x0000
  | .cycle => packWord 0x03 0x00 0x0000
  | .setout imm => packWord 0x04 0x00 imm
  | .rd ra => packWord 0x05 ra 0x0000
  | .wr ra imm => packWord 0x06 ra imm

/-- The table's mnemonic of an instruction (30_encoding.md R74). -/
def mnemonic : Instr → String
  | .setmode _ => "SETMODE"
  | .reset => "RESET"
  | .cycle => "CYCLE"
  | .setout _ => "SETOUT"
  | .rd _ => "RD"
  | .wr _ _ => "WR"

/-- One row of the opcode map: a word selects the row exactly when `CW & mask = match`
(30_encoding.md R74). -/
structure OpcodeRow where
  name : String
  pattern : Word
  mask : Word
deriving DecidableEq, Repr

/-- The opcode map as the spec prints it (30_encoding.md R74), written apart from `decode` so that the
two can be compared. -/
def opcodeTable : List OpcodeRow :=
  [⟨"SETMODE", 0x01000000, 0xFFFF0000⟩, ⟨"RESET", 0x02000000, 0xFFFFFFFF⟩,
   ⟨"CYCLE", 0x03000000, 0xFFFFFFFF⟩, ⟨"SETOUT", 0x04000000, 0xFFFF0000⟩,
   ⟨"RD", 0x05000000, 0xFF00FFFF⟩, ⟨"WR", 0x06000000, 0xFF000000⟩]

/-- Whether a word selects a row (30_encoding.md R74). -/
def OpcodeRow.selects (r : OpcodeRow) (w : Word) : Bool := w &&& r.mask == r.pattern

/-- The instruction the decoder reads from a word numbered as spec/opcode_table.json numbers it: one
32-bit word, bit 0 its least significant bit, every bit above `nbits` zero. -/
def decodeTableWord (nbits w : Nat) : Option Instr :=
  match decode (BitVec.ofNat 32 (w % 2 ^ nbits)) with
  | .ok i => some i
  | .error _ => none

end Sys2Proof
end

