-- ==== Sys2Proof/Machine/State.lean ====
section
/-! DEFINITION. The state of the block (10_state.md R20), the data its environment exchanges with it
(20_memory.md R59), and the state after hard reset (10_state.md R37). -/

namespace Sys2Proof.Machine

/-- The whole state of the block (10_state.md R20): nine data registers, SRF and four capture
registers. The capture registers exist only when HAS_DEBUG (R36); without it nothing reads or writes
the last four fields (log entry 3). -/
structure Block where
  /-- SETPOINT (R21). -/
  setpoint : Byte := 0
  /-- MODE: 0x00 MANUAL, 0x01 AUTO, any other value stored and not AUTO (R25). -/
  mode : Byte := 0
  /-- GAIN_P (R26). -/
  gainP : Half := 0
  /-- GAIN_I (R26). -/
  gainI : Half := 0
  /-- GAIN_D (R26). -/
  gainD : Half := 0
  /-- PV (R22). -/
  pv : Byte := 0
  /-- LAST_PV (R23). -/
  lastPv : Byte := 0
  /-- ERR_SUM, two's complement (R24). -/
  errSum : Word := 0
  /-- OUTPUT (R27). -/
  output : Byte := 0
  /-- SRF, the SampleReadyFlag (R30). -/
  srf : Bool := false
  /-- DBG_E, two's complement (R36). -/
  dbgE : Half := 0
  /-- DBG_P, two's complement (R36). -/
  dbgP : Dword := 0
  /-- DBG_I, two's complement (R36). -/
  dbgI : Dword := 0
  /-- DBG_D, two's complement (R36). -/
  dbgD : Dword := 0
deriving DecidableEq, Repr

/-- What leaves the block (20_memory.md R67). -/
inductive PortEvent where
  /-- PV_REQ: one sample request. -/
  | pvReq
  /-- ACT_WR with ACT_DATA: one `Actuate(v)` event (20_memory.md R57). -/
  | actuate (v : Byte)
  /-- RSP_STATUS with RSP_DATA: the response of one command (30_encoding.md R80). -/
  | response (st : Status) (data : Dword)
deriving DecidableEq, Repr

/-- The machine: the block's state, and, as fields of the MODEL'S OWN, its parameters (`cfg`, which no
step writes), its inputs (`pvIn`, `inbox`, `drawn`), the record of its outputs since hard reset (`log`) and the
faults recorded of the run (`faults`), both oldest first. Log entries 2, 5, 7, 8 and 21. -/
structure State extends Block where
  /-- The parameters the block was built with (00_scope.md R6, R7). -/
  cfg : Config
  /-- The PV_IN port during the current instant (20_memory.md R56). -/
  pvIn : Byte
  /-- The instants placed and still to come, oldest first. -/
  inbox : List Instant
  /-- How many instants the free environment has given: when none is placed, the next one is
  `Config.environment drawn` (60_exceptions.md R191). -/
  drawn : Nat
  /-- What has left the block since hard reset, oldest first (20_memory.md R57, R67). -/
  log : List PortEvent
  /-- The status of every rejection of the run, oldest first: the recorded faults of 60_exceptions.md R197, kept
  through hard resets. The block itself keeps no such record (R181 d), and nothing reads it back. -/
  faults : List Status
deriving DecidableEq, Repr

/-- No fault exists: nothing stops the block (60_exceptions.md R180, R181 e, R187). A rejected command
is a next state with a response, not a fault (log entry 9); the run's record keeps it in `State.faults`. -/
inductive Fault : Type
deriving DecidableEq, Repr

/-- Why a step has no meaning. -/
inductive Refusal where
  /-- Raised by `exec` for a command without a meaning; no arm raises it in this model. Safe: a
  refusal proves nothing about the hardware. -/
  | notModelled (mnemonic : String)
deriving DecidableEq, Repr

/-- The block at hard reset: every field is the zero of 10_state.md R37, written out here. -/
def Block.reset : Block where
  setpoint := 0x00
  mode := 0x00
  gainP := 0x0000
  gainI := 0x0000
  gainD := 0x0000
  pv := 0x00
  lastPv := 0x00
  errSum := 0x00000000
  output := 0x00
  srf := false
  dbgE := 0x0000
  dbgP := 0x0000000000000000
  dbgI := 0x0000000000000000
  dbgD := 0x0000000000000000

/-- The machine at the start of a run, after hard reset, with the parameters `cfg`, `pvIn` on the sample port and
`inbox` placed (10_state.md R37, 70_reset_and_hazards.md R210). -/
def State.resetWith (cfg : Config) (pvIn : Byte) (inbox : List Instant) : State :=
  { toBlock := Block.reset, cfg := cfg, pvIn := pvIn, inbox := inbox, drawn := 0, log := [], faults := [] }

/-- The machine right after hard reset, nothing placed in its inbox (10_state.md R37). Log entry 14. -/
def State.reset : State := State.resetWith Config.device Config.pvInAtReset []

end Sys2Proof.Machine
end

