-- ==== Sys2Proof/Machine/Flags.lean ====
section
/-! DEFINITION. The one condition bit SRF (10_state.md R30, R31) and the guard that reads it with MODE
(10_state.md R25, 41_cycle_control_law.md R120 step 3). The block has no other flags (10_state.md R39). -/

namespace Sys2Proof.Machine

/-- `is_auto`: MODE holds exactly 0x01 (10_state.md R25). -/
def isAuto (b : Block) : Bool := b.mode == 0x01

/-- The guard of CYCLE's step 3: `SRF = 1 and is_auto` (41_cycle_control_law.md R120). -/
def lawDue (b : Block) : Bool := b.srf && isAuto b

/-- `SRF <- 1`, what a TICK does (60_exceptions.md R190). -/
def setSrf (s : State) : State := { s with srf := true }

/-- `SRF <- 0`, what a CYCLE that runs the law does (41_cycle_control_law.md R120). -/
def clearSrf (s : State) : State := { s with srf := false }

/-- The STATUS view: bit 0 is SRF, bits 7 to 1 are 0 (10_state.md R31). -/
def statusView (b : Block) : Byte := if b.srf then 0x01 else 0x00

end Sys2Proof.Machine
end

