-- ==== Sys2Proof/Machine/Ops.lean ====
section
/-! DEFINITION. The shared operations: the ports (20_memory.md R56, R57; 30_encoding.md R80), rejection
(60_exceptions.md R181), the two input events (60_exceptions.md R190, 70_reset_and_hazards.md R210), and the
one read and the one write of a register (43_register_access.md R165, R168). -/

namespace Sys2Proof.Machine

/-- Append one event to what has left the block (20_memory.md R57, R67). -/
def emit (e : PortEvent) (s : State) : State := { s with log := s.log ++ [e] }

/-- `respond(status, data)`: end the command (30_encoding.md R80). -/
def respond (st : Status) (d : Dword) (s : State) : State := emit (.response st d) s

/-- Record a fault of the run (60_exceptions.md R197). The record is the observer's and not the block's. -/
def recordFault (st : Status) (s : State) : State := { s with faults := s.faults ++ [st] }

/-- `raise <Status>`, the block's whole exception entry (60_exceptions.md R181): the block writes nothing,
saves nothing and emits no event, and the response is `(<Status>, 0)`; the run's record gets the fault (R197). There is
no return from it (R195): the next command executes normally. -/
def reject (st : Status) (s : State) : State := respond st 0 (recordFault st s)

/-- Finish a command whose checks gave `st`: run it when they passed, reject it otherwise. All checks
are made before the first effect (60_exceptions.md R181, R188). -/
def runIfOk (st : Status) (run : State → State) (s : State) : State :=
  if st = .ok then run s else reject st s

/-- The 8-bit code on RSP_STATUS (30_encoding.md R80). -/
def statusCode : Status → Byte
  | .ok => 0x00
  | .errOpcode => 0x01
  | .errField => 0x02
  | .errReg => 0x03
  | .errRo => 0x04
  | .errRange => 0x05

/-- The `Actuate` trace since hard reset (20_memory.md R57). -/
def actuateTrace (log : List PortEvent) : List Byte :=
  log.filterMap fun e => match e with
    | .actuate v => some v
    | .pvReq => none
    | .response _ _ => none

/-- The responses since hard reset, as the ports RSP_STATUS and RSP_DATA show them (20_memory.md R67). -/
def responses (log : List PortEvent) : List (Byte × Dword) :=
  log.filterMap fun e => match e with
    | .response st d => some (statusCode st, d)
    | .pvReq => none
    | .actuate _ => none

/-- The number of sample requests since hard reset (20_memory.md R56, R67). -/
def sampleRequests (log : List PortEvent) : Nat := log.count .pvReq

/-- `s <- sample() ; x[PV] <- s`: one request on PV_REQ, answered by what stands on PV_IN
(20_memory.md R56). -/
def takeSample (s : State) : State := emit .pvReq { s with pv := s.pvIn }

/-- A TICK event: `SRF <- 1` and nothing else (60_exceptions.md R190). -/
def tickEvent (s : State) : State := setSrf s

/-- An RST event: every piece of state takes its reset value and the trace starts empty
(70_reset_and_hazards.md R210). The parameters, the environment's inputs and the run's recorded faults are not the
block's: a run goes on through a hard reset (20_memory.md R60 c), and so does its record (60_exceptions.md R197). -/
def hardReset (s : State) : State := { s with toBlock := Block.reset, log := [] }

/-- The value `RD` returns, as 64 bits: zero-extended when the register is unsigned, sign-extended when
it is signed (43_register_access.md R165). -/
def readReg (b : Block) : Reg → Dword
  | .setpoint => b.setpoint.setWidth 64
  | .mode => b.mode.setWidth 64
  | .gainP => b.gainP.setWidth 64
  | .gainI => b.gainI.setWidth 64
  | .gainD => b.gainD.setWidth 64
  | .pv => b.pv.setWidth 64
  | .lastPv => b.lastPv.setWidth 64
  | .errSum => b.errSum.signExtend 64
  | .output => b.output.setWidth 64
  | .status => (statusView b).setWidth 64
  | .dbgE => b.dbgE.signExtend 64
  | .dbgP => b.dbgP
  | .dbgI => b.dbgI
  | .dbgD => b.dbgD

/-- `x[r] <- v` as `WR` does it (43_register_access.md R168): an 8-bit register takes `imm[7:0]`, a
16-bit register takes `imm[15:0]`; no other register is writable. -/
def writeReg (r : Reg) (imm : Half) (s : State) : State :=
  match r with
  | .setpoint => { s with setpoint := imm.extractLsb' 0 8 }
  | .mode => { s with mode := imm.extractLsb' 0 8 }
  | .gainP => { s with gainP := imm }
  | .gainI => { s with gainI := imm }
  | .gainD => { s with gainD := imm }
  | .pv | .lastPv | .errSum | .output | .status | .dbgE | .dbgP | .dbgI | .dbgD => s

end Sys2Proof.Machine
end

