-- ==== Sys2Proof/Machine/OutputStage.lean ====
section
/-! DEFINITION. The output stage (42_output_stage.md): saturation, `set_output`, and SETOUT. -/

namespace Sys2Proof.Machine

/-- `clamp(v, lo, hi)` (00_scope.md R10): `hi` above, `lo` below, else `v`. -/
def clamp (v lo hi : Int) : Int := if v > hi then hi else if v < lo then lo else v

/-- The value `set_output(u)` commands: `u` clamped to `[MIN_OUTPUT, MAX_OUTPUT]` by signed comparison on
the full width, which then fits 8 bits exactly (42_output_stage.md R150, R151). -/
def saturate (c : Config) (u : Int) : Byte := BitVec.ofInt 8 (clamp u c.minOutput c.maxOutput)

/-- `set_output(u)` (42_output_stage.md R150): OUTPUT takes the clamped value and one `Actuate` event
carries it, also when it equals the previous one. -/
def setOutput (u : Int) (s : State) : State :=
  emit (.actuate (saturate s.cfg u)) { s with output := saturate s.cfg u }

/-- SETOUT (42_output_stage.md R152): `set_output(sext_16(imm))`, answered with the clamped value. -/
def execSetout (imm : Half) (s : State) : Host.Outcome State Fault Refusal :=
  .next (respond .ok ((saturate s.cfg (sext16 imm)).setWidth 64) (setOutput (sext16 imm) s))

end Sys2Proof.Machine
end

