-- ==== Sys2Proof/Machine/ControlLaw.lean ====
section
/-! DEFINITION. The control law (41_cycle_control_law.md R123 to R136), over the mathematical integers:
no operation of the block wraps (R134), so exact arithmetic with the stated clamps is the law (R135; log entry 10). -/

namespace Sys2Proof.Machine

/-- `tdiv(a, b)` (00_scope.md R10): the magnitude divided, the remainder dropped, the sign applied. -/
def tdiv (a : Int) (b : Nat) : Int := a.sign * ((a.natAbs / b : Nat) : Int)

/-- `smul(g, v)` (41_cycle_control_law.md R126): the sign-magnitude product. -/
def smul (g : Half) (v : Int) : Int := v.sign * ((g.toNat * v.natAbs : Nat) : Int)

/-- Step 1: `e = SETPOINT - PV` (R124). -/
def lawError (b : Block) : Int := (b.setpoint.toNat : Int) - (b.pv.toNat : Int)

/-- Step 2: the accumulator after adding `e` and clamping (R125). -/
def accumulate (c : Config) (acc e : Int) : Int := clamp (acc + e) (-(c.maxErrorSum : Int)) c.maxErrorSum

/-- The value step 2 stores in ERR_SUM (R125). -/
def newErrSum (c : Config) (b : Block) : Int := accumulate c b.errSum.toInt (lawError b)

/-- Step 3: `p_term` (R127). -/
def pTerm (b : Block) : Int := smul b.gainP (lawError b)

/-- Step 3: `i_term`, over the ERR_SUM that this cycle has just stored (R127). -/
def iTerm (c : Config) (b : Block) : Int := smul b.gainI (newErrSum c b)

/-- Step 3: `d_term`, on the measurement (R127). -/
def dTerm (b : Block) : Int := smul b.gainD ((b.pv.toNat : Int) - (b.lastPv.toNat : Int))

/-- Step 4, first half: all three terms with a plus sign (R128). -/
def lawSum (c : Config) (b : Block) : Int := pTerm b + iTerm c b + dTerm b

/-- Step 4, second half: the scaled quotient `u` (R129). -/
def lawU (c : Config) (b : Block) : Int := tdiv (lawSum c b) c.scalingFactor

/-- Capture of the cycle's values, when the capture registers exist (R132). -/
def captureDebug (e p i d : Int) (s : State) : State :=
  if s.cfg.hasDebug then
    { s with dbgE := BitVec.ofInt 16 e, dbgP := BitVec.ofInt 64 p,
             dbgI := BitVec.ofInt 64 i, dbgD := BitVec.ofInt 64 d }
  else s

/-- `control_law()` (R131): the accumulator, the capture, and the hand-over to the output stage, every
value computed from the registers as they stand on entry. -/
def controlLaw (s : State) : State :=
  setOutput (lawU s.cfg s.toBlock)
    (captureDebug (lawError s.toBlock) (pTerm s.toBlock) (iTerm s.cfg s.toBlock) (dTerm s.toBlock)
      { s with errSum := BitVec.ofInt 32 (newErrSum s.cfg s.toBlock) })

end Sys2Proof.Machine
end

