-- ==== Sys2Proof/Machine/CycleCommand.lean ====
section
/-! DEFINITION. The cycle command (41_cycle_control_law.md R120, R121): CYCLE. -/

namespace Sys2Proof.Machine

/-- Steps 1 and 2: `LAST_PV <- PV`, then one sample into PV (41_cycle_control_law.md R120). -/
def shiftMeasurement (s : State) : State := takeSample { s with lastPv := s.pv }

/-- Step 3: the flag cleared and the law run when a sample is due in AUTO, else nothing
(41_cycle_control_law.md R120). Test and clear are one step (20_memory.md R62). -/
def lawIfDue (s : State) : State := if lawDue s.toBlock then controlLaw (clearSrf s) else s

/-- CYCLE (41_cycle_control_law.md R120). -/
def execCycle (s : State) : Host.Outcome State Fault Refusal :=
  .next (respond .ok 0 (lawIfDue (shiftMeasurement s)))

end Sys2Proof.Machine
end

