-- ==== Sys2Proof/Machine/ModeReset.lean ====
section
/-! DEFINITION. The mode and reset commands (40_mode_reset.md): RESET and SETMODE. -/

namespace Sys2Proof.Machine

/-- The four capture registers set to 0, when they exist (40_mode_reset.md R100, 10_state.md R36). -/
def clearDebug (s : State) : State :=
  if s.cfg.hasDebug then { s with dbgE := 0, dbgP := 0, dbgI := 0, dbgD := 0 } else s

/-- `do_reset()` (40_mode_reset.md R100): ERR_SUM, LAST_PV, PV and the capture registers set to 0. -/
def doReset (s : State) : State := clearDebug { s with errSum := 0, lastPv := 0, pv := 0 }

/-- RESET (40_mode_reset.md R100). -/
def execReset (s : State) : Host.Outcome State Fault Refusal := .next (respond .ok 0 (doReset s))

/-- SETMODE once its operand passed: the full reset, then `MODE <- m` (40_mode_reset.md R103). -/
def setmode (imm : Half) (s : State) : State :=
  respond .ok 0 { doReset s with mode := imm.extractLsb' 0 8 }

/-- SETMODE (40_mode_reset.md R103): ERR_RANGE unless the mode code is 0 or 1. -/
def execSetmode (imm : Half) (s : State) : Host.Outcome State Fault Refusal :=
  .next (runIfOk (setmodeStatus imm) (setmode imm) s)

end Sys2Proof.Machine
end

