-- ==== Sys2Proof/Machine/RegisterAccess.lean ====
section
/-! DEFINITION. The register access commands (43_register_access.md): RD and WR. -/

namespace Sys2Proof.Machine

/-- What RD returns from an index: the register's value, and 0 where there is none to read. -/
def readIndex (s : State) (ra : Byte) : Dword :=
  match implementedReg s.cfg.hasDebug ra with
  | some r => readReg s.toBlock r
  | none => 0

/-- RD (43_register_access.md R165): no state is written; ERR_REG when the index names no register. -/
def execRd (ra : Byte) (s : State) : Host.Outcome State Fault Refusal :=
  .next (runIfOk (rdStatus s.cfg.hasDebug ra) (fun t => respond .ok (readIndex t ra) t) s)

/-- WR's write once its checks passed: only the register named is written. -/
def writeIndex (ra : Byte) (imm : Half) (s : State) : State :=
  match implementedReg s.cfg.hasDebug ra with
  | some r => writeReg r imm s
  | none => s

/-- WR (43_register_access.md R168): ERR_REG, ERR_RO, ERR_RANGE in that order, else the write. -/
def execWr (ra : Byte) (imm : Half) (s : State) : Host.Outcome State Fault Refusal :=
  .next (runIfOk (wrStatus s.cfg.hasDebug ra imm) (fun t => respond .ok 0 (writeIndex ra imm t)) s)

end Sys2Proof.Machine
end

