-- ==== Sys2Proof/Machine/Dispatch.lean ====
section
/-! DEFINITION. One arm per command (30_encoding.md R74). -/

namespace Sys2Proof.Machine

/-- The effect of one command that has been decoded. -/
def exec (i : Instr) (s : State) : Host.Outcome State Fault Refusal :=
  match i with
  | .setmode imm => Sys2Proof.Machine.execSetmode imm s
  | .reset => Sys2Proof.Machine.execReset s
  | .cycle => Sys2Proof.Machine.execCycle s
  | .setout imm => Sys2Proof.Machine.execSetout imm s
  | .rd ra => Sys2Proof.Machine.execRd ra s
  | .wr ra imm => Sys2Proof.Machine.execWr ra imm s

end Sys2Proof.Machine
end

