-- ==== Sys2Proof/Machine/Instants.lean ====
section
/-! DEFINITION. What the block does with the inputs of one instant (20_memory.md R60 to R62; 60_exceptions.md R194;
70_reset_and_hazards.md R210). -/

namespace Sys2Proof.Machine

/-- A command word on CMD: executed when it selects a row, rejected otherwise (30_encoding.md R78,
60_exceptions.md R182, R183, R188 steps 1 and 2). -/
def command (w : Word) (s : State) : Host.Outcome State Fault Refusal :=
  match decode w with
  | .ok i => exec i s
  | .error e => .next (reject e.status s)

/-- A tick ordered after what the instant's command did. For a CYCLE that clears SRF the spec orders it so (20_memory.md
R61, 60_exceptions.md R194 a). For a CYCLE that clears nothing, with SRF = 0 in AUTO (R62 admits either order), and for
RD STATUS (R194 b), it is the model's: DESIGN CHOICE, log entry 6. For anything else the order shows in nothing. -/
def thenTick (tick : Bool) (o : Host.Outcome State Fault Refusal) : Host.Outcome State Fault Refusal :=
  match o with
  | .next t => .next (if tick then tickEvent t else t)
  | .fault f => .fault f
  | .refused r => .refused r

/-- The command of an instant, if the host issued one. -/
def commandIfAny (cmd : Option Word) (s : State) : Host.Outcome State Fault Refusal :=
  match cmd with
  | some w => command w s
  | none => .next s

/-- The next instant: the oldest one placed, or, with none placed, the environment's next (60_exceptions.md R191). -/
def State.upcoming (s : State) : Instant :=
  match s.inbox with
  | p :: _ => p
  | [] => Config.environment s.drawn

/-- The state as the next instant's inputs find it: that instant taken, and its sample on PV_IN. -/
def State.received (s : State) : State :=
  match s.inbox with
  | p :: rest => { s with inbox := rest, pvIn := p.pvIn }
  | [] => { s with drawn := s.drawn + 1, pvIn := (Config.environment s.drawn).pvIn }

/-- Every instant still to come: those placed, then the environment's, without end. -/
def State.future (s : State) (k : Nat) : Instant :=
  s.inbox.getD k (Config.environment (s.drawn + (k - s.inbox.length)))

/-- The state with `p` placed as the next instant. -/
def State.given (p : Instant) (s : State) : State := { s with inbox := p :: s.inbox }

/-- One instant: a reset wins over everything that coincides with it (70_reset_and_hazards.md R210);
otherwise the command runs whole, and a coinciding tick follows it. So a CYCLE that finds SRF = 0 in AUTO does not run the
law on a tick of its own instant: DESIGN CHOICE, log entry 6. -/
def instant (p : Instant) (s : State) : Host.Outcome State Fault Refusal :=
  if p.rst then .next (hardReset s) else thenTick p.tick (commandIfAny p.cmd s)

/-- An instant at which the host issues the word `w` and nothing else happens, with `sample` on PV_IN. -/
def commandInstant (w : Word) (sample : Byte) : Instant := { rst := false, tick := false, cmd := some w, pvIn := sample }

/-- An instant at which one tick arrives and nothing else happens. -/
def tickInstant (sample : Byte) : Instant := { rst := false, tick := true, cmd := none, pvIn := sample }

/-- An instant at which RST is asserted and nothing else happens. -/
def rstInstant (sample : Byte) : Instant := { rst := true, tick := false, cmd := none, pvIn := sample }

end Sys2Proof.Machine
end

