-- ==== Sys2Proof/Machine/Step.lean ====
section
/-! DEFINITION. One step of the machine: the inputs of the next instant (20_memory.md R60). Log entry 5. -/

namespace Sys2Proof.Machine

/-- One step. -/
def step (s : State) : Host.Outcome State Fault Refusal := instant s.upcoming s.received

/-- The machine with one command word placed as the very next input (log entry 14): the block fetches
nothing (10_state.md R28), its commands come from the host. The sample port keeps its value. -/
def State.withFetchWord (s : State) (nbits w : Nat) : State :=
  s.given (commandInstant (BitVec.ofNat 32 (w % 2 ^ nbits)) s.pvIn)

end Sys2Proof.Machine
end

