-- ==== Sys2Proof/Machine/HostProc.lean ====
section
/-! DEFINITION. The host's side of the command set: pseudo-instructions (30_encoding.md R83), the SAVE and LOAD
procedures (43_register_access.md R171), and the assembler spelling (30_encoding.md R82). Nothing here is part of the block. -/

namespace Sys2Proof.Machine

/-- `GETOUT` is `RD OUTPUT` (30_encoding.md R83, 42_output_stage.md R153). -/
def getout : Instr := .rd (regIndex .output)

/-- `AUTO` is `SETMODE 1` (30_encoding.md R83). -/
def auto : Instr := .setmode 1

/-- `MANUAL` is `SETMODE 0` (30_encoding.md R83). -/
def manual : Instr := .setmode 0

/-- `GETSTAT` is `RD STATUS` (30_encoding.md R83). -/
def getstat : Instr := .rd (regIndex .status)

/-- The five persisted fields (20_memory.md R58), as the external store holds them. -/
structure Persisted where
  setpoint : Byte
  mode : Byte
  gainP : Half
  gainI : Half
  gainD : Half
deriving DecidableEq, Repr

/-- The five fields as the block holds them. -/
def persistedOf (b : Block) : Persisted :=
  { setpoint := b.setpoint, mode := b.mode, gainP := b.gainP, gainI := b.gainI, gainD := b.gainD }

/-- The commands of SAVE, in its order (43_register_access.md R171). -/
def saveCommands : List Instr :=
  [.rd (regIndex .setpoint), .rd (regIndex .mode), .rd (regIndex .gainP), .rd (regIndex .gainI), .rd (regIndex .gainD)]

/-- The commands of LOAD from a store that holds `nv` (43_register_access.md R171). -/
def loadCommands (nv : Persisted) : List Instr :=
  [.wr (regIndex .setpoint) (nv.setpoint.setWidth 16), .wr (regIndex .mode) (nv.mode.setWidth 16),
   .wr (regIndex .gainP) nv.gainP, .wr (regIndex .gainI) nv.gainI, .wr (regIndex .gainD) nv.gainD]

/-- What SAVE writes to the store from the five response words (43_register_access.md R171:
`d0[7:0]`, `d1[7:0]`, `d2[15:0]`, `d3[15:0]`, `d4[15:0]`). -/
def savedFrom (d0 d1 d2 d3 d4 : Dword) : Persisted :=
  { setpoint := d0.extractLsb' 0 8, mode := d1.extractLsb' 0 8, gainP := d2.extractLsb' 0 16,
    gainI := d3.extractLsb' 0 16, gainD := d4.extractLsb' 0 16 }

/-- Commands executed back to back. -/
def execAll : List Instr → State → Host.Outcome State Fault Refusal
  | [], s => .next s
  | i :: is, s =>
    match exec i s with
    | .next t => execAll is t
    | .fault f => .fault f
    | .refused r => .refused r

/-- A register's name in assembly (10_state.md R29, 30_encoding.md R82). -/
def regName : Reg → String
  | .setpoint => "SETPOINT"
  | .mode => "MODE"
  | .gainP => "GAIN_P"
  | .gainI => "GAIN_I"
  | .gainD => "GAIN_D"
  | .pv => "PV"
  | .lastPv => "LAST_PV"
  | .errSum => "ERR_SUM"
  | .output => "OUTPUT"
  | .status => "STATUS"
  | .dbgE => "DBG_E"
  | .dbgP => "DBG_P"
  | .dbgI => "DBG_I"
  | .dbgD => "DBG_D"

/-- One hexadecimal digit in capitals. -/
def hexDigit (n : Nat) : String := String.ofList [(Nat.digitChar n).toUpper]

/-- A register operand: its name, or a bare index such as `r0x0E` (30_encoding.md R82). -/
def regOperand (ra : Byte) : String :=
  match regAt ra with
  | some r => regName r
  | none => "r0x" ++ hexDigit (ra.toNat / 16) ++ hexDigit (ra.toNat % 16)

/-- A signed decimal numeral. -/
def signedNumeral (v : Int) : String :=
  if v < 0 then "-" ++ toString v.natAbs else toString v.natAbs

/-- A mode operand: MANUAL, AUTO, or a decimal numeral (30_encoding.md R82). -/
def modeOperand (imm : Half) : String :=
  if imm = 0 then "MANUAL" else if imm = 1 then "AUTO" else toString imm.toNat

/-- A command as one line of assembly (30_encoding.md R82). Log entry 19. -/
def assembly : Instr → String
  | .setmode imm => "SETMODE " ++ modeOperand imm
  | .reset => "RESET"
  | .cycle => "CYCLE"
  | .setout imm => "SETOUT " ++ signedNumeral (sext16 imm)
  | .rd ra => "RD " ++ regOperand ra
  | .wr ra imm => "WR " ++ regOperand ra ++ ", " ++ toString imm.toNat

end Sys2Proof.Machine
end

