-- ==== Sys2Proof/Safety.lean ====
section
/-! DEFINITION. What counts as a safe run, in the terms statements use: the invariants of reachable states
(10_state.md R32, R33, 42_output_stage.md R154) and the absence of rejections (60_exceptions.md R197). -/

namespace Sys2Proof.Machine

/-- `-MAX_ERROR_SUM <= x[ERR_SUM] <= MAX_ERROR_SUM` (10_state.md R32). -/
def ErrSumBounded (s : State) : Prop :=
  -(s.cfg.maxErrorSum : Int) ≤ s.errSum.toInt ∧ s.errSum.toInt ≤ s.cfg.maxErrorSum

/-- OUTPUT is the last value sent to the actuator, or 0 when none has been sent (42_output_stage.md R154). -/
def OutputIsLastActuated (s : State) : Prop := s.output = (actuateTrace s.log).getLastD 0x00

/-- Every value sent to the actuator lies in `[MIN_OUTPUT, MAX_OUTPUT]` (20_memory.md R57). -/
def ActuationsInRange (s : State) : Prop :=
  ∀ v ∈ actuateTrace s.log, s.cfg.minOutput ≤ v.toNat ∧ v.toNat ≤ s.cfg.maxOutput

/-- The fields of the capture registers hold 0 when the registers do not exist (10_state.md R36): the model's choice, log
entry 3. -/
def NoStrayDebug (s : State) : Prop :=
  s.cfg.hasDebug = false → s.dbgE = 0 ∧ s.dbgP = 0 ∧ s.dbgI = 0 ∧ s.dbgD = 0

/-- The captured terms lie in the ranges of the values they capture (41_cycle_control_law.md R124, R127, R132). -/
def DebugInRange (s : State) : Prop :=
  (-255 ≤ s.dbgE.toInt ∧ s.dbgE.toInt ≤ 255) ∧
  (-16711425 ≤ s.dbgP.toInt ∧ s.dbgP.toInt ≤ 16711425) ∧
  (-(65535 * (s.cfg.maxErrorSum : Int)) ≤ s.dbgI.toInt ∧ s.dbgI.toInt ≤ 65535 * s.cfg.maxErrorSum) ∧
  (-16711425 ≤ s.dbgD.toInt ∧ s.dbgD.toInt ≤ 16711425)

/-- The invariant of the block: what the spec says of every reachable state, and the model's own NoStrayDebug (log entry 3). -/
structure Inv (s : State) : Prop where
  errSumBounded : ErrSumBounded s
  outputIsLastActuated : OutputIsLastActuated s
  actuationsInRange : ActuationsInRange s
  noStrayDebug : NoStrayDebug s
  debugInRange : DebugInRange s

/-- No fault is recorded of the run so far, hard resets included: the premise the spec advises for claims about
command sequences (60_exceptions.md R197). -/
def NoRejection (s : State) : Prop := s.faults = []

/-- `run` is a run of the block under the inputs `inputs`, any infinite sequence of instants (60_exceptions.md R191,
20_memory.md R60 c): each state is the step of the one before it with the next instant placed. -/
def IsRun (inputs : Nat → Instant) (run : Nat → State) : Prop :=
  ∀ k, step ((run k).given (inputs k)) = .next (run (k + 1))

end Sys2Proof.Machine
end

