-- ==== Sys2Proof/Certificates/Slice0/Obligations.lean ====
section
/-! DEFINITION. The statements about the block, each with the rule of spec/ it formalises. -/

open Sys2Proof Sys2Proof.Machine

/-! ## Encoding (30_encoding.md) -/

/-- A word decodes to an instruction exactly when it is that instruction's word: no operand bit is dropped and no
word has two readings (30_encoding.md R71, R73, R74). -/
def Obligations.DecodeEncodeAgree : Prop :=
  ∀ (w : Word) (i : Instr), decode w = .ok i ↔ w = encode i

/-- 30_encoding.md R78: every word is rejected for its opcode, or rejected for a must-be-zero field, or selects exactly
one row of R74's table, the row of the instruction it decodes to; exactly one of the three holds. -/
def Obligations.DecodingIsTotal : Prop :=
  ∀ w : Word,
    let legalOp := 0x01 ≤ w.toNat / 2 ^ 24 ∧ w.toNat / 2 ^ 24 ≤ 0x06
    let rows := opcodeTable.filter (fun r => r.selects w)
    (decode w = .error .illegalOpcode ∧ ¬ legalOp ∧ rows = []) ∨
    (decode w = .error .reservedField ∧ legalOp ∧ rows = []) ∨
    (∃ i r, decode w = .ok i ∧ legalOp ∧ rows = [r] ∧ r.name = mnemonic i)

/-- 30_encoding.md R84: the nine encoding examples. -/
def Obligations.EncodingExamples : Prop :=
  decode 0x01000001 = .ok (.setmode 0x0001) ∧ decode 0x02000000 = .ok .reset ∧ decode 0x03000000 = .ok .cycle ∧
  decode 0x04000100 = .ok (.setout 0x0100) ∧ decode 0x0400FFFF = .ok (.setout 0xFFFF) ∧
  decode 0x05070000 = .ok (.rd 0x07) ∧ decode 0x06000064 = .ok (.wr 0x00 0x0064) ∧
  decode 0x06020002 = .ok (.wr 0x02 0x0002) ∧ decode 0x0604FFFF = .ok (.wr 0x04 0xFFFF) ∧
  sext16 0x0100 = 256 ∧ sext16 0xFFFF = -1 ∧ regIndex .errSum = 0x07 ∧ regIndex .setpoint = 0x00 ∧
  regIndex .gainP = 0x02 ∧ regIndex .gainD = 0x04

/-- 30_encoding.md R83: the words of the four pseudo-instructions and what they expand to. -/
def Obligations.PseudoInstructionWords : Prop :=
  (getout = .rd 0x08 ∧ encode getout = 0x05080000) ∧ (auto = .setmode 1 ∧ encode auto = 0x01000001) ∧
  (manual = .setmode 0 ∧ encode manual = 0x01000000) ∧ (getstat = .rd 0x09 ∧ encode getstat = 0x05090000)

/-! ## Rejection (60_exceptions.md) -/

/-- 60_exceptions.md R182: a word with opcode 0x00 or 0x07 to 0xFF, whatever its other bits, is answered with status
0x01 and data 0, and no state of the block changes; no other word is answered so. `s.received` is the state with the next
instant taken, and `faults` is the run's record of rejections (R197 advises it; the model's choice, log entry 21). -/
def Obligations.IllegalOpcodeRejected : Prop :=
  statusCode .errOpcode = 0x01 ∧
  ∀ (s : State) (w : Word) (v : Byte), s.upcoming = commandInstant w v →
    (step s = .next { s.received with log := s.log ++ [.response .errOpcode 0], faults := s.faults ++ [.errOpcode] } ↔
      w.toNat / 2 ^ 24 = 0x00 ∨ 0x07 ≤ w.toNat / 2 ^ 24)

/-- 60_exceptions.md R183: `ra != 0` in SETMODE, RESET, CYCLE, SETOUT, or `imm != 0` in RESET, CYCLE, RD, is answered with
status 0x02 and data 0, and no state of the block changes; no other word, and no WR, is answered so (the record
`faults` is the model's choice, log entry 21). -/
def Obligations.ReservedFieldRejected : Prop :=
  statusCode .errField = 0x02 ∧
  ∀ (s : State) (w : Word) (v : Byte), s.upcoming = commandInstant w v →
    let op := w.toNat / 2 ^ 24
    let ra := w.toNat / 2 ^ 16 % 2 ^ 8
    let imm := w.toNat % 2 ^ 16
    (step s = .next { s.received with log := s.log ++ [.response .errField 0], faults := s.faults ++ [.errField] } ↔
      (1 ≤ op ∧ op ≤ 4 ∧ ra ≠ 0) ∨ ((op = 2 ∨ op = 3 ∨ op = 5) ∧ imm ≠ 0))

/-- 60_exceptions.md R184: status 0x03 answers exactly the RD and WR whose index is 0x0E to 0xFF, or 0x0A to 0x0D without
HAS_DEBUG; nothing but the response and the run's record of rejections (the model's choice, log entry 21)
changes. -/
def Obligations.UnimplementedRegisterRejected : Prop :=
  statusCode .errReg = 0x03 ∧
  ∀ (s : State) (i : Instr),
    exec i s = .next { s with log := s.log ++ [.response .errReg 0], faults := s.faults ++ [.errReg] } ↔
      ∃ ra : Byte, (0x0E ≤ ra.toNat ∨ (0x0A ≤ ra.toNat ∧ s.cfg.hasDebug = false)) ∧ (i = .rd ra ∨ ∃ imm, i = .wr ra imm)

/-- 60_exceptions.md R185: status 0x04 answers exactly the WR of an implemented register that is not one of the five
writable ones; nothing but the response and the run's record of rejections (the model's choice, log entry 21)
changes. -/
def Obligations.ReadOnlyRegisterRejected : Prop :=
  statusCode .errRo = 0x04 ∧
  ∀ (s : State) (i : Instr),
    exec i s = .next { s with log := s.log ++ [.response .errRo 0], faults := s.faults ++ [.errRo] } ↔
      ∃ (ra : Byte) (imm : Half), i = .wr ra imm ∧
        ((0x05 ≤ ra.toNat ∧ ra.toNat ≤ 0x09) ∨ (s.cfg.hasDebug = true ∧ 0x0A ≤ ra.toNat ∧ ra.toNat ≤ 0x0D))

/-- 60_exceptions.md R186: status 0x05 answers exactly SETMODE with an immediate of 0x0002 to 0xFFFF and WR of SETPOINT or
MODE with `imm[15:8] != 0`; nothing but the response and the run's record of rejections (the model's choice, log entry 21)
changes. -/
def Obligations.OutOfRangeOperandRejected : Prop :=
  statusCode .errRange = 0x05 ∧
  ∀ (s : State) (i : Instr),
    exec i s = .next { s with log := s.log ++ [.response .errRange 0], faults := s.faults ++ [.errRange] } ↔
      (∃ imm : Half, 0x0002 ≤ imm.toNat ∧ i = .setmode imm) ∨
      (∃ imm : Half, 0x0100 ≤ imm.toNat ∧ (i = .wr 0x00 imm ∨ i = .wr 0x01 imm))

/-- 60_exceptions.md R188: the status of a command word is given by the first check that fails, in the order opcode,
must-be-zero fields, register implemented, register writable, operand in range. -/
def Obligations.CheckOrder : Prop :=
  ∀ (s : State) (w : Word) (v : Byte), s.upcoming = commandInstant w v →
    let op := w.toNat / 2 ^ 24
    let ra := w.toNat / 2 ^ 16 % 2 ^ 8
    let imm := w.toNat % 2 ^ 16
    ∃ t d, step s = .next t ∧ t.log.getLast? = some (.response
      (if ¬ (1 ≤ op ∧ op ≤ 6) then .errOpcode
       else if (op ≤ 4 ∧ ra ≠ 0) ∨ ((op = 2 ∨ op = 3 ∨ op = 5) ∧ imm ≠ 0) then .errField
       else if 5 ≤ op ∧ ¬ (ra ≤ 0x09 ∨ (ra ≤ 0x0D ∧ s.cfg.hasDebug = true)) then .errReg
       else if op = 6 ∧ ¬ ra ≤ 0x04 then .errRo
       else if (op = 1 ∧ 1 < imm) ∨ (op = 6 ∧ ra ≤ 0x01 ∧ 255 < imm) then .errRange
       else .ok) d)

/-- 60_exceptions.md R181: a command answered with any status but OK has changed no register and no flag, has emitted no
event and requested no sample; its response is (status, 0), and the run's record gets the status (R197; the
model's choice, log entry 21). -/
def Obligations.RejectionHasNoEffect : Prop :=
  ∀ (s : State) (w : Word) (v : Byte), s.upcoming = commandInstant w v →
    ∃ t st d, step s = .next t ∧ t.log.getLast? = some (.response st d) ∧
      (st ≠ .ok → t = { s.received with log := s.log ++ [.response st 0], faults := s.faults ++ [st] })

/-- 30_encoding.md R80, without the table of data values (those stand in the statements of each command): every command,
accepted or rejected, produces exactly one response, last of all it emits, and only the six status codes occur. -/
def Obligations.OneResponsePerCommand : Prop :=
  ∀ (s : State) (w : Word) (v : Byte), s.upcoming = commandInstant w v →
    ∃ t out st d, step s = .next t ∧ t.log = s.log ++ out ++ [.response st d] ∧ responses out = [] ∧
      (statusCode st).toNat ≤ 0x05 ∧ (statusCode st = 0x00 ↔ st = .ok) ∧ (st ≠ .ok → d = 0 ∧ out = [])

/-- 60_exceptions.md R197, last sentence: a command is accepted exactly when its operands are in range and its register
implemented (and, for WR, writable). -/
def Obligations.WellFormedNeverRejected : Prop :=
  ∀ (s : State) (i : Instr),
    ∃ t st d, exec i s = .next t ∧ t.log.getLast? = some (.response st d) ∧
      (st = .ok ↔ WellFormed s.cfg.hasDebug i = true)

/-! ## The step, the tick and hard reset (20_memory.md, 60_exceptions.md, 70_reset_and_hazards.md) -/

/-- One step at an instant without RST runs the instruction its word decodes to, on the state with the instant taken and
its sample on PV_IN (`State.received`: the oldest placed instant, or the environment's next), and a tick of the same instant
then sets SRF (20_memory.md R60, R61). The first two clauses, by which the next instant is the oldest placed one and, with
none placed, the free environment's next, are the model's choice (log entry 5). R61 orders the tick so for a CYCLE that
clears SRF alone; that it also follows a CYCLE that clears nothing (SRF = 0 in AUTO; R62 admits either order) and any other
command (R194 (b) admits either) is the model's choice (log entry 6). -/
def Obligations.StepRunsDecodedCommand : Prop :=
  (∀ (s : State) (p : Instant) (rest : List Instant), s.inbox = p :: rest →
    s.upcoming = p ∧ s.received = { s with inbox := rest, pvIn := p.pvIn }) ∧
  (∀ s : State, s.inbox = [] → s.upcoming = Config.environment s.drawn ∧
    s.received = { s with drawn := s.drawn + 1, pvIn := (Config.environment s.drawn).pvIn }) ∧
  ∀ (s : State) (w : Word) (i : Instr), s.upcoming.rst = false → s.upcoming.cmd = some w → decode w = .ok i →
    ∃ t, exec i s.received = .next t ∧ step s = .next (if s.upcoming.tick then { t with srf := true } else t)

/-- An instant with no reset, no tick and no command leaves the block, the record and the recorded faults as they are: the
step takes the instant and puts its sample on PV_IN, which nothing reads then (20_memory.md R60; that the model has such
instants is its choice, log entry 5). -/
def Obligations.StepWithoutInputHolds : Prop :=
  ∀ s : State, s.upcoming.rst = false → s.upcoming.tick = false → s.upcoming.cmd = none →
    step s = .next s.received ∧ s.received.toBlock = s.toBlock ∧ s.received.cfg = s.cfg ∧ s.received.log = s.log ∧
      s.received.faults = s.faults

/-- 70_reset_and_hazards.md R210: RST puts every register, SRF and the capture registers to 0 and empties the trace,
whatever tick or command coincides with it; no response, event or sample request results; the parameters and the
run's recorded faults stay (R197; the model's choice, log entry 21), and the instant is taken as in every step (log entry 5).
That the four fields of the capture registers are 0 also without HAS_DEBUG, where the registers do not exist (R36), is the
model's choice (log entry 3). `SRF = 0` is the spec's own decision (R37, D18); that the record of responses and sample requests starts empty too is the
model's choice (log entry 8). -/
def Obligations.HardResetZeroesEverything : Prop :=
  ∀ s : State, s.upcoming.rst = true →
    step s = .next
      { setpoint := 0, mode := 0, gainP := 0, gainI := 0, gainD := 0, pv := 0, lastPv := 0, errSum := 0, output := 0,
        srf := false, dbgE := 0, dbgP := 0, dbgI := 0, dbgD := 0, cfg := s.cfg,
        pvIn := s.upcoming.pvIn, inbox := s.received.inbox, drawn := s.received.drawn, log := [], faults := s.faults }

/-- 10_state.md R37: the state after hard reset. `SRF = 0` and the empty trace are the spec's own decision (D18); that the
whole record and the recorded faults are empty is the model's choice (log entries 8 and 21), and so is that the fields of the
capture registers are 0 also without HAS_DEBUG, where R37 gives them no value (log entry 3). -/
def Obligations.ResetStateValues : Prop :=
  let s := State.reset
  s.setpoint = 0 ∧ s.pv = 0 ∧ s.lastPv = 0 ∧ s.errSum = 0 ∧ s.mode = 0x00 ∧ s.gainP = 0 ∧ s.gainI = 0 ∧ s.gainD = 0 ∧
  s.output = 0 ∧ s.dbgE = 0 ∧ s.dbgP = 0 ∧ s.dbgI = 0 ∧ s.dbgD = 0 ∧ s.srf = false ∧ actuateTrace s.log = [] ∧ s.log = [] ∧
  s.faults = []

/-- 10_state.md R38 and 60_exceptions.md R190: one tick or more, with nothing between them, leave SRF = 1 and change
nothing else; they are not counted. That the instants are taken from the future, the placed ones first and then the free
environment's, is the model's choice (log entry 5). -/
def Obligations.TicksAreNotCounted : Prop :=
  ∀ (n : Nat) (s : State) (v : Nat → Byte), (∀ k ≤ n, s.future k = tickInstant (v k)) →
    Host.Core.run core (n + 1) s = .next
      { s with srf := true, pvIn := v n, inbox := s.inbox.drop (n + 1), drawn := s.drawn + (n + 1 - s.inbox.length) }

/-- 10_state.md R30: SRF is set by a tick and by nothing else, and cleared by a CYCLE that finds `SRF = 1` in AUTO, or by
hard reset, and by nothing else. That a tick also leaves SRF = 1 at an instant with a CYCLE that clears nothing (SRF = 0 in
AUTO) is the model's choice (log entry 6). -/
def Obligations.FlagWriters : Prop :=
  ∀ s : State, ∃ t, step s = .next t ∧
    (s.srf = false → t.srf = true → s.upcoming.rst = false ∧ s.upcoming.tick = true) ∧
    (s.srf = true → t.srf = false → s.upcoming.rst = true ∨
      (s.upcoming.tick = false ∧ s.upcoming.cmd = some 0x03000000 ∧ s.mode = 0x01)) ∧
    (s.upcoming.rst = false → s.upcoming.tick = true → t.srf = true) ∧
    (s.upcoming.rst = false → s.upcoming.tick = false → s.upcoming.cmd = some 0x03000000 → s.srf = true → s.mode = 0x01 →
      t.srf = false) ∧
    (s.upcoming.rst = true → t.srf = false)

/-- 20_memory.md R61: when a tick coincides with the CYCLE that clears SRF, the law runs and SRF is 1 afterwards, which is
exactly what the CYCLE followed by the tick gives. -/
def Obligations.TickAtTheClearIsKept : Prop :=
  ∀ (s : State) (v : Byte), s.srf = true → s.mode = 0x01 →
    s.upcoming = { rst := false, tick := true, cmd := some 0x03000000, pvIn := v } →
    ∃ t a, step s = .next t ∧ t.srf = true ∧ actuateTrace t.log = actuateTrace s.log ++ [a] ∧
      Host.Core.run core 2 ((s.received.given (tickInstant v)).given (commandInstant 0x03000000 v)) = .next t

/-- 60_exceptions.md R194 (b): the order of a tick and any command but CYCLE and RD STATUS is immaterial; for RD STATUS the
order shows in the response alone, which is 0 or 1. -/
def Obligations.TickCommutesWithCommands : Prop :=
  ∀ (s : State) (i : Instr), i ≠ .cycle →
    ∃ t u, exec i s = .next t ∧ exec i { s with srf := true } = .next u ∧
      (i ≠ .rd 0x09 → u = { t with srf := true }) ∧
      (i = .rd 0x09 → u.toBlock = { t.toBlock with srf := true } ∧ u.log = s.log ++ [.response .ok 1] ∧
        (t.log = s.log ++ [.response .ok 0] ∨ t.log = s.log ++ [.response .ok 1]))

/-- No input can stop the block: every run of every length completes, takes one instant of the future a step, and leaves
the parameters as they are (60_exceptions.md R180, R181 e; 10_state.md R20: nothing writes the parameters). That the
future has no end is the model's choice (log entry 5). -/
def Obligations.EveryRunCompletes : Prop :=
  ∀ (k : Nat) (s : State), ∃ t, Host.Core.run core k s = .next t ∧ t.cfg = s.cfg ∧ ∀ n, t.future n = s.future (n + k)

/-! ## RESET and SETMODE (40_mode_reset.md) -/

/-- 40_mode_reset.md R100: the word and the effect of RESET, on every state; any other word of opcode 0x02 is reserved. -/
def Obligations.ResetClearsHistory : Prop :=
  encode .reset = 0x02000000 ∧
  (∀ w : Word, w.toNat / 2 ^ 24 = 0x02 → w ≠ 0x02000000 → decode w = .error .reservedField) ∧
  ∀ s : State, exec .reset s = .next { s with
    errSum := 0, lastPv := 0, pv := 0,
    dbgE := if s.cfg.hasDebug then 0 else s.dbgE, dbgP := if s.cfg.hasDebug then 0 else s.dbgP,
    dbgI := if s.cfg.hasDebug then 0 else s.dbgI, dbgD := if s.cfg.hasDebug then 0 else s.dbgD,
    log := s.log ++ [.response .ok 0] }

/-- 40_mode_reset.md R101: a second RESET leaves the block as the first did, both answer (OK, 0), and a tick between them
changes SRF only. -/
def Obligations.ResetIdempotent : Prop :=
  ∀ s : State, ∃ t u u', exec .reset s = .next t ∧ exec .reset t = .next u ∧ exec .reset { t with srf := true } = .next u' ∧
    u.toBlock = t.toBlock ∧ u'.toBlock = { t.toBlock with srf := true } ∧
    t.log = s.log ++ [.response .ok 0] ∧ u.log = t.log ++ [.response .ok 0]

/-- 40_mode_reset.md R102: what RESET leaves unchanged, the actuator among it. -/
def Obligations.ResetLeavesTheRest : Prop :=
  ∀ s : State, ∃ t, exec .reset s = .next t ∧
    t.setpoint = s.setpoint ∧ t.mode = s.mode ∧ t.gainP = s.gainP ∧ t.gainI = s.gainI ∧ t.gainD = s.gainD ∧
    t.output = s.output ∧ t.srf = s.srf ∧ actuateTrace t.log = actuateTrace s.log

/-- 40_mode_reset.md R103: the words and the effect of SETMODE. With mode code 0 or 1: the full reset and then the mode;
with any other code: ERR_RANGE and no effect (the record `faults` is the model's choice, log entry 21); with `ra != 0`:
reserved. -/
def Obligations.SetmodeResetsThenSetsMode : Prop :=
  encode (.setmode 0) = 0x01000000 ∧ encode (.setmode 1) = 0x01000001 ∧
  (∀ w : Word, w.toNat / 2 ^ 24 = 0x01 → w.toNat / 2 ^ 16 % 2 ^ 8 ≠ 0 → decode w = .error .reservedField) ∧
  ∀ (s : State) (imm : Half),
    (imm.toNat ≤ 1 → exec (.setmode imm) s = .next { s with
      mode := BitVec.ofNat 8 imm.toNat, errSum := 0, lastPv := 0, pv := 0,
      dbgE := if s.cfg.hasDebug then 0 else s.dbgE, dbgP := if s.cfg.hasDebug then 0 else s.dbgP,
      dbgI := if s.cfg.hasDebug then 0 else s.dbgI, dbgD := if s.cfg.hasDebug then 0 else s.dbgD,
      log := s.log ++ [.response .ok 0] }) ∧
    (2 ≤ imm.toNat → exec (.setmode imm) s = .next { s with log := s.log ++ [.response .errRange 0], faults := s.faults ++ [.errRange] })

/-- 40_mode_reset.md R105: in one step MODE changes only at hard reset, by SETMODE, or by WR MODE. -/
def Obligations.ModeChangesOnlyBy : Prop :=
  ∀ s : State, ∃ t, step s = .next t ∧
    (t.mode ≠ s.mode →
      (s.upcoming.rst = true ∨ ∃ w, s.upcoming.cmd = some w ∧
        ((∃ m : Half, m.toNat ≤ 1 ∧ decode w = .ok (.setmode m) ∧ t.mode.toNat = m.toNat) ∨
         (∃ v : Half, v.toNat ≤ 255 ∧ decode w = .ok (.wr 0x01 v) ∧ t.mode.toNat = v.toNat))))

/-- 40_mode_reset.md R104 (b), (c), (d): with SRF = 1 already, a CYCLE issued directly after SETMODE AUTO runs the law from
`ERR_SUM = 0` with the derivative operand `s - 0 = s`, the sample itself. -/
def Obligations.FirstCycleAfterSetmodeAuto : Prop :=
  ∀ s : State, s.srf = true → ∃ t u : State, exec (.setmode 1) s = .next t ∧ exec .cycle t = .next u ∧
    u.srf = false ∧ u.lastPv = 0 ∧ u.pv = s.pvIn ∧
    u.errSum.toInt = max (-(s.cfg.maxErrorSum : Int)) (min ((s.setpoint.toNat : Int) - s.pvIn.toNat) s.cfg.maxErrorSum) ∧
    (s.cfg.hasDebug = true → u.dbgD.toInt = (s.gainD.toNat : Int) * s.pvIn.toNat ∧
      u.dbgI.toInt = (s.gainI.toNat : Int) * u.errSum.toInt)

/-! ## CYCLE and the control law (41_cycle_control_law.md) -/

/-- 41_cycle_control_law.md R120: the word of CYCLE (any other word of opcode 0x03 is reserved), its two unconditional
steps with exactly one sample request, and its guard: the law runs, on the state with SRF cleared, exactly when
`SRF = 1` and MODE is 0x01; otherwise nothing else changes, the flag included. -/
def Obligations.CycleGuard : Prop :=
  encode .cycle = 0x03000000 ∧
  (∀ w : Word, w.toNat / 2 ^ 24 = 0x03 → w ≠ 0x03000000 → decode w = .error .reservedField) ∧
  ∀ s : State,
    (s.srf = true ∧ s.mode = 0x01 → exec .cycle s = .next (respond .ok 0 (controlLaw
      { s with lastPv := s.pv, pv := s.pvIn, srf := false, log := s.log ++ [.pvReq] }))) ∧
    (s.srf = false ∨ s.mode ≠ 0x01 → exec .cycle s = .next
      { s with lastPv := s.pv, pv := s.pvIn, log := s.log ++ [.pvReq, .response .ok 0] })

/-- 41_cycle_control_law.md R131 (R124, R125, R127 to R130, R132, R135): what a CYCLE that runs the law leaves, with the
law computed in ordinary integer arithmetic, and its frame. -/
def Obligations.CycleRunsControlLaw : Prop :=
  ∀ s : State, s.srf = true → s.mode = 0x01 →
    let e : Int := (s.setpoint.toNat : Int) - s.pvIn.toNat
    let es : Int := max (-(s.cfg.maxErrorSum : Int)) (min (s.errSum.toInt + e) s.cfg.maxErrorSum)
    let p : Int := (s.gainP.toNat : Int) * e
    let i : Int := (s.gainI.toNat : Int) * es
    let d : Int := (s.gainD.toNat : Int) * ((s.pvIn.toNat : Int) - s.pv.toNat)
    let u : Int := Int.tdiv (p + i + d) s.cfg.scalingFactor
    ∃ t : State, exec .cycle s = .next t ∧
      t.errSum.toInt = es ∧
      (t.output.toNat : Int) = max (s.cfg.minOutput : Int) (min u s.cfg.maxOutput) ∧
      t.log = s.log ++ [.pvReq, .actuate t.output, .response .ok 0] ∧
      t.lastPv = s.pv ∧ t.pv = s.pvIn ∧ t.srf = false ∧
      (s.cfg.hasDebug = true → t.dbgE.toInt = e ∧ t.dbgP.toInt = p ∧ t.dbgI.toInt = i ∧ t.dbgD.toInt = d) ∧
      (s.cfg.hasDebug = false → t.dbgE = s.dbgE ∧ t.dbgP = s.dbgP ∧ t.dbgI = s.dbgI ∧ t.dbgD = s.dbgD) ∧
      t.setpoint = s.setpoint ∧ t.mode = s.mode ∧ t.gainP = s.gainP ∧ t.gainI = s.gainI ∧ t.gainD = s.gainD ∧
      t.cfg = s.cfg ∧ t.pvIn = s.pvIn ∧ t.inbox = s.inbox ∧ t.drawn = s.drawn ∧ t.faults = s.faults

/-- 41_cycle_control_law.md R133: two states that agree on SETPOINT, MODE, SRF, the gains, PV, ERR_SUM, the sample and the
parameters come out of a CYCLE with the same ERR_SUM, and, when the law runs, the same OUTPUT, the same captures and the
same Actuate value, whatever OUTPUT, LAST_PV, the captures and the record held before. -/
def Obligations.CycleIgnoresOtherState : Prop :=
  ∀ s t : State, s.cfg = t.cfg → s.pvIn = t.pvIn → s.setpoint = t.setpoint → s.mode = t.mode → s.srf = t.srf →
    s.gainP = t.gainP → s.gainI = t.gainI → s.gainD = t.gainD → s.pv = t.pv → s.errSum = t.errSum →
    ∃ s' t' out, exec .cycle s = .next s' ∧ exec .cycle t = .next t' ∧
      s'.errSum = t'.errSum ∧ s'.srf = t'.srf ∧ s'.pv = t'.pv ∧ s'.lastPv = t'.lastPv ∧
      s'.log = s.log ++ out ∧ t'.log = t.log ++ out ∧
      (s.srf = true ∧ s.mode = 0x01 → s'.output = t'.output ∧
        (s.cfg.hasDebug = true → s'.dbgE = t'.dbgE ∧ s'.dbgP = t'.dbgP ∧ s'.dbgI = t'.dbgI ∧ s'.dbgD = t'.dbgD))

/-- 41_cycle_control_law.md R134: with ERR_SUM in its bound, no intermediate of the law leaves the width the spec gives it:
`e` and the measurement difference within 255, `acc` within 33 bits, the terms and the sum within 48 bits, `u` no larger than
the sum. -/
def Obligations.ArithmeticNeverOverflows : Prop :=
  ∀ s : State, ErrSumBounded s →
    let c := s.cfg
    let b := s.toBlock
    |lawError b| ≤ 255 ∧ |(b.pv.toNat : Int) - b.lastPv.toNat| ≤ 255 ∧
    |b.errSum.toInt + lawError b| ≤ 2 ^ 31 + 254 ∧ |newErrSum c b| ≤ c.maxErrorSum ∧
    |pTerm b| ≤ 16711425 ∧ |dTerm b| ≤ 16711425 ∧ |iTerm c b| ≤ 140735340806145 ∧
    |lawSum c b| ≤ 140735374228995 ∧ |lawSum c b| < 2 ^ 47 ∧ |lawU c b| ≤ |lawSum c b|

/-- 41_cycle_control_law.md R136: whenever the sum is below SCALING_FACTOR the commanded value is exactly MIN_OUTPUT, and
rounding the quotient toward minus infinity would command the same value for every sum. -/
def Obligations.SmallSumCommandsMinimum : Prop :=
  ∀ (c : Config) (sum : Int),
    (sum < c.scalingFactor → (saturate c (tdiv sum c.scalingFactor)).toNat = c.minOutput) ∧
    saturate c (tdiv sum c.scalingFactor) = saturate c (Int.fdiv sum c.scalingFactor)

/-- 41_cycle_control_law.md R137: over control cycles whose errors all have the same sign, ERR_SUM follows the running sum
until it meets the bound, and stays there. The instants are those of a host that issues CYCLE once per tick, with any
samples `vs` on the one side of the setpoint. That they may be placed or the free environment's is the model's choice (log
entry 5). -/
def Obligations.AntiWindup : Prop :=
  ∀ (vs : List Byte) (s : State), ErrSumBounded s → s.srf = true → s.mode = 0x01 →
    (∀ (k : Nat) (v : Byte), vs[k]? = some v →
      s.future k = { rst := false, tick := true, cmd := some (encode .cycle), pvIn := v }) →
    let total : Int := (vs.map (fun v => (s.setpoint.toNat : Int) - v.toNat)).sum
    ∃ t : State, Host.Core.run core vs.length s = .next t ∧ t.srf = true ∧
      ((∀ v ∈ vs, v.toNat < s.setpoint.toNat) → t.errSum.toInt = min (s.errSum.toInt + total) s.cfg.maxErrorSum) ∧
      ((∀ v ∈ vs, s.setpoint.toNat < v.toNat) → t.errSum.toInt = max (s.errSum.toInt + total) (-(s.cfg.maxErrorSum : Int)))

/-- 41_cycle_control_law.md R140: the source's end-to-end scenario, on every state and configuration that fits it. -/
def Obligations.EndToEndScenario : Prop :=
  ∀ s : State, s.cfg.scalingFactor = 10 → 10 ≤ s.cfg.maxErrorSum → s.cfg.minOutput ≤ 3 → 3 ≤ s.cfg.maxOutput →
    s.setpoint = 100 → s.pv = 90 → s.lastPv = 90 → s.errSum = 0 → s.gainP = 2 → s.gainI = 1 → s.gainD = 1 →
    lawError s.toBlock = 10 ∧ pTerm s.toBlock = 20 ∧ iTerm s.cfg s.toBlock = 10 ∧ dTerm s.toBlock = 0 ∧
    lawU s.cfg s.toBlock = 3 ∧ (controlLaw s).errSum = 10 ∧ (controlLaw s).output = 3 ∧
    (controlLaw s).log = s.log ++ [.actuate 3]

/-- 41_cycle_control_law.md R138: the derivative term has the sign of `PV - LAST_PV` (for a non-zero gain), and the two
examples. -/
def Obligations.DerivativeSign : Prop :=
  (∀ b : Block, b.gainD ≠ 0 → (dTerm b).sign = ((b.pv.toNat : Int) - b.lastPv.toNat).sign) ∧
  (∀ b : Block, b.gainD = 5 → b.pv = 10 → b.lastPv = 20 → dTerm b = -50) ∧
  (∀ b : Block, b.gainD = 5 → b.pv = 20 → b.lastPv = 10 → dTerm b = 50)

/-! ## The output stage (42_output_stage.md) -/

/-- 42_output_stage.md R150: for every integer `u`, `set_output` stores `u` clamped to `[MIN_OUTPUT, MAX_OUTPUT]`, emits that
value once, and changes nothing else. -/
def Obligations.SetOutputSaturates : Prop :=
  ∀ (u : Int) (s : State), ∃ v : Byte,
    (v.toNat : Int) = (if u > s.cfg.maxOutput then (s.cfg.maxOutput : Int) else if u < s.cfg.minOutput then s.cfg.minOutput else u) ∧
    setOutput u s = { s with output := v, log := s.log ++ [.actuate v] }

/-- 42_output_stage.md R151 (the spec's own derivation from R150): the notes on saturation, for every configuration and every integer. -/
def Obligations.SaturationNotes : Prop :=
  ∀ c : Config,
    (∀ u : Int, (c.minOutput : Int) ≤ u → u ≤ c.maxOutput → ((saturate c u).toNat : Int) = u) ∧
    (∀ u : Int, ¬ (u > c.maxOutput ∧ u < c.minOutput)) ∧
    ((saturate c (-1)).toNat = c.minOutput ∧ (saturate c (2 ^ 40)).toNat = c.maxOutput) ∧
    (c.minOutput = c.maxOutput → ∀ u : Int, (saturate c u).toNat = c.minOutput) ∧
    (∀ u : Int, c.minOutput ≤ (saturate c u).toNat ∧ (saturate c u).toNat ≤ c.maxOutput) ∧
    ((saturate c (c.maxOutput + 1)).toNat = c.maxOutput ∧ (saturate c ((c.minOutput : Int) - 1)).toNat = c.minOutput ∧
      (saturate c c.maxOutput).toNat = c.maxOutput ∧ (saturate c c.minOutput).toNat = c.minOutput) ∧
    (∀ u1 u2 : Int, u1 ≤ u2 → (saturate c u1).toNat ≤ (saturate c u2).toNat) ∧
    (∀ u : Int, saturate c ((saturate c u).toNat : Int) = saturate c u)

/-- 42_output_stage.md R152: the word and the effect of SETOUT, on every state and for every immediate: OUTPUT, one Actuate
event and the response all carry the clamped value, and nothing else changes; with `ra != 0` the word is reserved. -/
def Obligations.SetoutCommand : Prop :=
  (∀ imm : Half, (encode (.setout imm)).toNat = 0x04000000 + imm.toNat) ∧
  (∀ w : Word, w.toNat / 2 ^ 24 = 0x04 → w.toNat / 2 ^ 16 % 2 ^ 8 ≠ 0 → decode w = .error .reservedField) ∧
  ∀ (s : State) (imm : Half), ∃ v : Byte,
    (v.toNat : Int) = max (s.cfg.minOutput : Int) (min imm.toInt s.cfg.maxOutput) ∧
    exec (.setout imm) s = .next { s with output := v, log := s.log ++ [.actuate v, .response .ok (BitVec.ofNat 64 v.toNat)] }

/-- 42_output_stage.md R153: GETOUT has the word of RD OUTPUT, answers the stored output, and changes nothing; the word with
a non-zero immediate is reserved. -/
def Obligations.GetoutReadsOutput : Prop :=
  encode getout = 0x05080000 ∧
  (∀ w : Word, w.toNat / 2 ^ 16 = 0x0508 → w.toNat % 2 ^ 16 ≠ 0 → decode w = .error .reservedField) ∧
  ∀ s : State, exec getout s = .next { s with log := s.log ++ [.response .ok (BitVec.ofNat 64 s.output.toNat)] }

/-! ## Register access (43_register_access.md, 10_state.md) -/

/-- 10_state.md R31: RD STATUS answers SRF in bit 0 and zeros above, and changes nothing; WR STATUS is rejected with ERR_RO
(the record `faults` is the model's choice, log entry 21). -/
def Obligations.StatusView : Prop :=
  ∀ s : State,
    exec (.rd 0x09) s = .next { s with log := s.log ++ [.response .ok (if s.srf then 1 else 0)] } ∧
    ∀ imm : Half, exec (.wr 0x09 imm) s = .next { s with log := s.log ++ [.response .errRo 0], faults := s.faults ++ [.errRo] }

/-- 43_register_access.md R165, R166: the word of RD, and for every implemented register the response data, which is the
register's unsigned or signed value as its map entry says; RD changes nothing else, and an unimplemented index is answered
with ERR_REG (the record `faults` is the model's choice, log entry 21). -/
def Obligations.ReadReturnsRegister : Prop :=
  (∀ ra : Byte, (encode (.rd ra)).toNat = 0x05000000 + 2 ^ 16 * ra.toNat) ∧
  (∀ w : Word, w.toNat / 2 ^ 24 = 0x05 → w.toNat % 2 ^ 16 ≠ 0 → decode w = .error .reservedField) ∧
  (∀ (s : State) (ra : Byte), 0x0E ≤ ra.toNat ∨ (0x0A ≤ ra.toNat ∧ s.cfg.hasDebug = false) →
    exec (.rd ra) s = .next { s with log := s.log ++ [.response .errReg 0], faults := s.faults ++ [.errReg] }) ∧
  ∀ (s : State) (ra : Byte), ra.toNat ≤ 0x09 ∨ (ra.toNat ≤ 0x0D ∧ s.cfg.hasDebug = true) →
    ∃ d : Dword, exec (.rd ra) s = .next { s with log := s.log ++ [.response .ok d] } ∧
      (ra = 0x00 → d.toNat = s.setpoint.toNat) ∧ (ra = 0x01 → d.toNat = s.mode.toNat) ∧
      (ra = 0x02 → d.toNat = s.gainP.toNat) ∧ (ra = 0x03 → d.toNat = s.gainI.toNat) ∧
      (ra = 0x04 → d.toNat = s.gainD.toNat) ∧ (ra = 0x05 → d.toNat = s.pv.toNat) ∧
      (ra = 0x06 → d.toNat = s.lastPv.toNat) ∧ (ra = 0x07 → d.toInt = s.errSum.toInt) ∧
      (ra = 0x08 → d.toNat = s.output.toNat) ∧ (ra = 0x09 → d.toNat = s.srf.toNat) ∧
      (ra = 0x0A → d.toInt = s.dbgE.toInt) ∧ (ra = 0x0B → d.toInt = s.dbgP.toInt) ∧
      (ra = 0x0C → d.toInt = s.dbgI.toInt) ∧ (ra = 0x0D → d.toInt = s.dbgD.toInt)

/-- 43_register_access.md R168: the word of WR, the five writes (an 8-bit register takes `imm[7:0]` when it is all of the
value), and the three rejections in their order, each with no state of the block changed (the record `faults` is the
model's choice, log entry 21). -/
def Obligations.WriteStoresRegister : Prop :=
  (∀ (ra : Byte) (imm : Half), (encode (.wr ra imm)).toNat = 0x06000000 + 2 ^ 16 * ra.toNat + imm.toNat) ∧
  ∀ (s : State) (imm : Half),
    (imm.toNat ≤ 255 →
      exec (.wr 0x00 imm) s = .next { s with setpoint := BitVec.ofNat 8 imm.toNat, log := s.log ++ [.response .ok 0] } ∧
      exec (.wr 0x01 imm) s = .next { s with mode := BitVec.ofNat 8 imm.toNat, log := s.log ++ [.response .ok 0] }) ∧
    exec (.wr 0x02 imm) s = .next { s with gainP := imm, log := s.log ++ [.response .ok 0] } ∧
    exec (.wr 0x03 imm) s = .next { s with gainI := imm, log := s.log ++ [.response .ok 0] } ∧
    exec (.wr 0x04 imm) s = .next { s with gainD := imm, log := s.log ++ [.response .ok 0] } ∧
    (∀ ra : Byte, 0x0E ≤ ra.toNat ∨ (0x0A ≤ ra.toNat ∧ s.cfg.hasDebug = false) →
      exec (.wr ra imm) s = .next { s with log := s.log ++ [.response .errReg 0], faults := s.faults ++ [.errReg] }) ∧
    (∀ ra : Byte, (0x05 ≤ ra.toNat ∧ ra.toNat ≤ 0x09) ∨ (0x0A ≤ ra.toNat ∧ ra.toNat ≤ 0x0D ∧ s.cfg.hasDebug = true) →
      exec (.wr ra imm) s = .next { s with log := s.log ++ [.response .errRo 0], faults := s.faults ++ [.errRo] }) ∧
    (∀ ra : Byte, ra.toNat ≤ 0x01 → 255 < imm.toNat →
      exec (.wr ra imm) s = .next { s with log := s.log ++ [.response .errRange 0], faults := s.faults ++ [.errRange] })

/-- 43_register_access.md R169 (e): an accepted WR followed by RD of the same register returns the value written; also for a
MODE byte that names neither mode. -/
def Obligations.WriteThenReadReturnsValue : Prop :=
  ∀ (s : State) (ra : Byte) (imm : Half), WellFormed s.cfg.hasDebug (.wr ra imm) = true →
    ∃ t u d, exec (.wr ra imm) s = .next t ∧ exec (.rd ra) t = .next u ∧
      u.log = s.log ++ [.response .ok 0, .response .ok d] ∧ d.toNat = imm.toNat ∧ u.toBlock = t.toBlock

/-- 43_register_access.md R171 and 20_memory.md R58: SAVE answers words that hold the five persisted fields exactly and
changes nothing; LOAD of any stored image is accepted whole, stores the image, and changes nothing else; so LOAD of what
SAVE stored restores the fields from any later state. -/
def Obligations.SaveLoadRoundTrip : Prop :=
  (∀ s : State, ∃ d0 d1 d2 d3 d4 : Dword,
    execAll saveCommands s = .next { s with log := s.log ++
      [.response .ok d0, .response .ok d1, .response .ok d2, .response .ok d3, .response .ok d4] } ∧
    savedFrom d0 d1 d2 d3 d4 = persistedOf s.toBlock) ∧
  ∀ (nv : Persisted) (s : State), execAll (loadCommands nv) s = .next { s with
    setpoint := nv.setpoint, mode := nv.mode, gainP := nv.gainP, gainI := nv.gainI, gainD := nv.gainD,
    log := s.log ++ [.response .ok 0, .response .ok 0, .response .ok 0, .response .ok 0, .response .ok 0] }

/-! ## Whole-machine rules and invariants -/

/-- 10_state.md R34, the columns of the six commands: which command may change which state. That the records `log` and
`faults` only grow is of the model's records (log entries 8 and 21). -/
def Obligations.CommandWriteTable : Prop :=
  ∀ (s : State) (i : Instr), ∃ t, exec i s = .next t ∧
    (t.setpoint ≠ s.setpoint → ∃ v, i = .wr 0x00 v) ∧
    (t.mode ≠ s.mode → (∃ m, i = .setmode m) ∨ ∃ v, i = .wr 0x01 v) ∧
    (t.gainP ≠ s.gainP → ∃ v, i = .wr 0x02 v) ∧ (t.gainI ≠ s.gainI → ∃ v, i = .wr 0x03 v) ∧
    (t.gainD ≠ s.gainD → ∃ v, i = .wr 0x04 v) ∧
    (t.pv ≠ s.pv ∨ t.lastPv ≠ s.lastPv → i = .cycle ∨ i = .reset ∨ ∃ m, i = .setmode m) ∧
    (t.errSum ≠ s.errSum ∨ t.dbgE ≠ s.dbgE ∨ t.dbgP ≠ s.dbgP ∨ t.dbgI ≠ s.dbgI ∨ t.dbgD ≠ s.dbgD →
      i = .reset ∨ (∃ m, i = .setmode m) ∨ (i = .cycle ∧ s.srf = true ∧ s.mode = 0x01)) ∧
    (t.output ≠ s.output ∨ actuateTrace t.log ≠ actuateTrace s.log →
      (∃ u, i = .setout u) ∨ (i = .cycle ∧ s.srf = true ∧ s.mode = 0x01)) ∧
    (t.srf ≠ s.srf → t.srf = false ∧ i = .cycle ∧ s.srf = true ∧ s.mode = 0x01) ∧
    t.cfg = s.cfg ∧ t.pvIn = s.pvIn ∧ t.inbox = s.inbox ∧ t.drawn = s.drawn ∧ s.log <+: t.log ∧ s.faults <+: t.faults

/-- 20_memory.md R56, R67: one sample request in every CYCLE and in no other command, before any Actuate event of that
CYCLE; at most one Actuate event per command. -/
def Obligations.SampleRequestedOncePerCycle : Prop :=
  ∀ (s : State) (i : Instr), ∃ t out, exec i s = .next t ∧ t.log = s.log ++ out ∧
    sampleRequests out = (if i = .cycle then 1 else 0) ∧ (actuateTrace out).length ≤ 1 ∧
    (i = .cycle → out.head? = some .pvReq)

/-- The invariant holds at reset (10_state.md R32, R33, R36, R37; 42_output_stage.md R154). Its part NoStrayDebug, by which
the fields of the capture registers are 0 where the registers do not exist, is the model's choice (log entry 3). -/
def Obligations.InvariantAtReset : Prop := Inv State.reset

/-- Every step keeps the invariant, from every state that meets it, whatever the inputs (10_state.md R32, R33, R36;
42_output_stage.md R154; 20_memory.md R57; for the ranges of the captured terms 41_cycle_control_law.md R124, R127, R132).
Its part NoStrayDebug, by which the fields of the capture registers are 0 where the registers do not exist, is the model's
choice (log entry 3). -/
def Obligations.StepKeepsInvariant : Prop :=
  ∀ s : State, Inv s → ∃ t, step s = .next t ∧ Inv t

/-- 10_state.md R32: in every state reached from hard reset, for every configuration and all inputs, ERR_SUM lies within
its bound and is never -2^31. -/
def Obligations.ReachableErrSumBounded : Prop :=
  ∀ (c : Config) (v : Byte) (inputs : List Instant) (k : Nat),
    ∃ t : State, Host.Core.run core k (State.resetWith c v inputs) = .next t ∧
      -(c.maxErrorSum : Int) ≤ t.errSum.toInt ∧ t.errSum.toInt ≤ c.maxErrorSum ∧ t.errSum.toInt ≠ -2 ^ 31

/-- 10_state.md R33, 42_output_stage.md R154: in every state reached from hard reset, for every configuration and all inputs,
OUTPUT is the last value sent to the actuator, or 0 when none has been sent, and once one has been sent OUTPUT lies within
`[MIN_OUTPUT, MAX_OUTPUT]`. -/
def Obligations.ReachableOutputIsActuated : Prop :=
  ∀ (c : Config) (v : Byte) (inputs : List Instant) (k : Nat),
    ∃ t : State, Host.Core.run core k (State.resetWith c v inputs) = .next t ∧
      (actuateTrace t.log = [] → t.output = 0) ∧
      (∀ a, (actuateTrace t.log).getLast? = some a → t.output = a ∧ c.minOutput ≤ a.toNat ∧ a.toNat ≤ c.maxOutput)

/-! ## Runs: recorded faults, and inputs without end -/

/-- 60_exceptions.md R197, first sentence: in every step the run's record gains the status of every new response that is
not OK, and keeps all it held, a hard reset included; so it keeps them in every run. R197 is advice to the modeller, and the
block itself keeps no record (R181 d): the record `faults`, its form as a list of statuses, and its keeping through a hard
reset are the model's choice (log entry 21). -/
def Obligations.RejectionsAreRecorded : Prop :=
  (∀ s : State, ∃ t, step s = .next t ∧
    (s.upcoming.rst = true → t.faults = s.faults) ∧
    (s.upcoming.rst = false → ∃ out new, t.log = s.log ++ out ∧ t.faults = s.faults ++ new ∧
      new.map statusCode = ((responses out).map Prod.fst).filter (fun c => c != 0x00))) ∧
  ∀ (k : Nat) (s : State), ∃ t : State, Host.Core.run core k s = .next t ∧ s.faults <+: t.faults ∧
    (NoRejection t → NoRejection s)

/-- 60_exceptions.md R197, last sentence: a host program all of whose words stand for well-formed instructions is never
rejected, whatever ticks, resets and samples come with it, in a run of any length. That the record `faults` shows it, through
hard resets too, is the model's choice (log entry 21), and so is where the future comes from (log entry 5). -/
def Obligations.WellFormedProgramKeepsNoRejection : Prop :=
  ∀ (n : Nat) (s : State),
    (∀ k < n, ∀ w, (s.future k).cmd = some w → ∃ i, w = encode i ∧ WellFormed s.cfg.hasDebug i = true) →
    ∃ t : State, Host.Core.run core n s = .next t ∧ t.faults = s.faults

/-- 60_exceptions.md R191, last sentence: every infinite sequence of instants, so every sequence of ticks interleaved with
commands, is a run from every state, and every tick in it that no reset coincides with leaves SRF = 1 (at an instant with a
CYCLE that finds SRF = 0 in AUTO by the model's choice, log entry 6). The rest is the model's choice (log entry 5): that a
finite sequence is one that goes on with instants at which nothing happens, and the second part, by which the machine's own
run takes its future one instant a step and never ends, the placed instants first and then the free environment's. -/
def Obligations.EveryInputSequenceIsARun : Prop :=
  (∀ (inputs : Nat → Instant) (s : State), ∃ run : Nat → State, run 0 = s ∧ IsRun inputs run ∧
    ∀ k, (inputs k).rst = false → (inputs k).tick = true → (run (k + 1)).srf = true) ∧
  ∀ s : State, ∃ run : Nat → State, run 0 = s ∧
    ∀ k, step (run k) = .next (run (k + 1)) ∧ (run k).upcoming = s.future k ∧ Host.Core.run core k s = .next (run k)
end

