-- ==== Sys2Proof/Laws/Arith.lean ====
section
/-! SUPPORT. The arithmetic of the control law: what the clamps, the product, the quotient and the stores give
(00_scope.md R10, 41_cycle_control_law.md R124 to R129, R134). -/

namespace Sys2Proof.Machine

theorem clamp_eq_max_min (v lo hi : Int) (h : lo ≤ hi) : clamp v lo hi = max lo (min v hi) := by
  unfold clamp; split
  · omega
  · split <;> omega

theorem le_clamp (v lo hi : Int) (h : lo ≤ hi) : lo ≤ clamp v lo hi := by
  rw [clamp_eq_max_min v lo hi h]; omega

theorem clamp_le (v lo hi : Int) (h : lo ≤ hi) : clamp v lo hi ≤ hi := by
  rw [clamp_eq_max_min v lo hi h]; omega

/-- Sign-magnitude multiplication is multiplication (41_cycle_control_law.md R126). -/
theorem smul_eq_mul (g : Half) (v : Int) : smul g v = (g.toNat : Int) * v := by
  unfold smul
  rw [Int.natCast_mul, mul_left_comm, Int.sign_mul_natAbs]

/-- The spec's `tdiv` is division truncating toward zero (00_scope.md R10). -/
theorem tdiv_eq_tdiv (a : Int) (b : Nat) : tdiv a b = Int.tdiv a b := by
  unfold tdiv
  rcases Int.lt_trichotomy a 0 with h | h | h
  · rw [Int.sign_eq_neg_one_of_neg h]
    obtain ⟨n, rfl⟩ : ∃ n : Nat, a = -n := ⟨a.natAbs, by omega⟩
    simp [Int.neg_tdiv]
  · subst h; simp
  · rw [Int.sign_eq_one_of_pos h]
    obtain ⟨n, rfl⟩ : ∃ n : Nat, a = n := ⟨a.natAbs, by omega⟩
    simp

/-- A stored output reads back as the clamped value (42_output_stage.md R150, R151 a). -/
theorem saturate_toNat (c : Config) (u : Int) :
    ((saturate c u).toNat : Int) = max (c.minOutput : Int) (min u c.maxOutput) := by
  have h1 := c.minOutput_le_maxOutput
  have h2 := c.maxOutput_le
  unfold saturate
  rw [clamp_eq_max_min _ _ _ (by exact_mod_cast h1), BitVec.toNat_ofInt]
  omega

theorem saturate_mem (c : Config) (u : Int) : c.minOutput ≤ (saturate c u).toNat ∧ (saturate c u).toNat ≤ c.maxOutput := by
  have h1 := c.minOutput_le_maxOutput
  have h2 := saturate_toNat c u
  omega

/-- Two control values the clamp does not tell apart command the same output. -/
theorem saturate_congr (c : Config) (u v : Int) (h : max (c.minOutput : Int) (min u c.maxOutput) = max (c.minOutput : Int) (min v c.maxOutput)) :
    saturate c u = saturate c v := by
  apply BitVec.eq_of_toNat_eq
  have h1 := saturate_toNat c u
  have h2 := saturate_toNat c v
  omega

/-- An integer that fits a register reads back from it. -/
theorem toInt_ofInt_of_fits (w : Nat) (v : Int) (lo : -(2 ^ w : Nat) ≤ v) (hi : v < (2 ^ w : Nat)) :
    (BitVec.ofInt (w + 1) v).toInt = v := by
  rw [BitVec.toInt_ofInt]
  have hp : (2 ^ (w + 1) : Nat) = 2 * 2 ^ w := by rw [pow_succ]; omega
  rw [hp]
  refine Int.bmod_eq_of_le ?_ ?_ <;> omega

theorem accumulate_mem (c : Config) (acc e : Int) :
    -(c.maxErrorSum : Int) ≤ accumulate c acc e ∧ accumulate c acc e ≤ c.maxErrorSum :=
  ⟨le_clamp _ _ _ (by omega), clamp_le _ _ _ (by omega)⟩

/-- The accumulator's store is exact (41_cycle_control_law.md R125). -/
theorem newErrSum_store (c : Config) (b : Block) : (BitVec.ofInt 32 (newErrSum c b)).toInt = newErrSum c b := by
  have h := accumulate_mem c b.errSum.toInt (lawError b)
  have hm := c.maxErrorSum_le
  refine toInt_ofInt_of_fits 31 _ ?_ ?_ <;> unfold newErrSum <;> norm_num at * <;> omega

/-- `-255 <= e <= 255` (41_cycle_control_law.md R124). -/
theorem lawError_mem (b : Block) : -255 ≤ lawError b ∧ lawError b ≤ 255 := by
  unfold lawError
  have h1 := b.setpoint.isLt
  have h2 := b.pv.isLt
  omega

theorem gain_le (g : Half) : (g.toNat : Int) ≤ 65535 := by
  have h := g.isLt
  omega

/-- A product's magnitude is bounded by the largest gain times the operand's bound (41_cycle_control_law.md R127). -/
theorem smul_mem (g : Half) (v m : Int) (lo : -m ≤ v) (hi : v ≤ m) : -(65535 * m) ≤ smul g v ∧ smul g v ≤ 65535 * m := by
  rw [smul_eq_mul]
  have hg := gain_le g
  have hg0 : (0 : Int) ≤ g.toNat := by omega
  constructor <;> nlinarith

theorem pTerm_mem (b : Block) : -16711425 ≤ pTerm b ∧ pTerm b ≤ 16711425 := by
  have h := lawError_mem b
  have := smul_mem b.gainP (lawError b) 255 h.1 h.2
  unfold pTerm; omega

theorem dTerm_mem (b : Block) : -16711425 ≤ dTerm b ∧ dTerm b ≤ 16711425 := by
  have h1 := b.pv.isLt
  have h2 := b.lastPv.isLt
  have := smul_mem b.gainD ((b.pv.toNat : Int) - (b.lastPv.toNat : Int)) 255 (by omega) (by omega)
  unfold dTerm; omega

theorem iTerm_mem (c : Config) (b : Block) : -(65535 * (c.maxErrorSum : Int)) ≤ iTerm c b ∧ iTerm c b ≤ 65535 * c.maxErrorSum :=
  have h := accumulate_mem c b.errSum.toInt (lawError b)
  smul_mem b.gainI (newErrSum c b) c.maxErrorSum h.1 h.2

/-- The four captured values fit their registers (41_cycle_control_law.md R132). -/
theorem capture_exact (c : Config) (b : Block) :
    (BitVec.ofInt 16 (lawError b)).toInt = lawError b ∧ (BitVec.ofInt 64 (pTerm b)).toInt = pTerm b ∧
    (BitVec.ofInt 64 (iTerm c b)).toInt = iTerm c b ∧ (BitVec.ofInt 64 (dTerm b)).toInt = dTerm b := by
  have he := lawError_mem b
  have hp := pTerm_mem b
  have hi := iTerm_mem c b
  have hd := dTerm_mem b
  have hm := c.maxErrorSum_le
  refine ⟨toInt_ofInt_of_fits 15 _ ?_ ?_, toInt_ofInt_of_fits 63 _ ?_ ?_, toInt_ofInt_of_fits 63 _ ?_ ?_,
    toInt_ofInt_of_fits 63 _ ?_ ?_⟩ <;> norm_num at * <;> omega

end Sys2Proof.Machine
end

