-- ==== Sys2Proof/Laws/Encoding.lean ====
section
/-! SUPPORT. The three fields of a packed word, and a word rebuilt from its fields (30_encoding.md R71). -/

namespace Sys2Proof

/-- A byte is known by its number. -/
theorem byte_eq (x : Byte) (k : Nat) (h : x.toNat = k) : x = BitVec.ofNat 8 k := by subst h; simp

theorem opField_toNat (w : Word) : (opField w).toNat = w.toNat / 2 ^ 24 := by
  have := w.isLt
  simp only [opField, BitVec.extractLsb'_toNat, Nat.shiftRight_eq_div_pow]; omega

theorem raField_toNat (w : Word) : (raField w).toNat = w.toNat / 2 ^ 16 % 2 ^ 8 := by
  simp only [raField, BitVec.extractLsb'_toNat, Nat.shiftRight_eq_div_pow]

theorem immField_toNat (w : Word) : (immField w).toNat = w.toNat % 2 ^ 16 := by
  simp [immField, BitVec.extractLsb'_toNat]

/-- The number a packed word stands for. -/
theorem toNat_packWord (op ra : Byte) (imm : Half) :
    (packWord op ra imm).toNat = 2 ^ 24 * op.toNat + 2 ^ 16 * ra.toNat + imm.toNat := by
  have h2 := ra.isLt; have h3 := imm.isLt
  simp only [packWord, BitVec.toNat_append, Nat.shiftLeft_eq]
  rw [Nat.mul_comm op.toNat, ← Nat.two_pow_add_eq_or_of_lt h2, Nat.mul_comm _ (2 ^ 16), ← Nat.two_pow_add_eq_or_of_lt h3]
  omega

@[simp] theorem opField_packWord (op ra : Byte) (imm : Half) : opField (packWord op ra imm) = op := by
  apply BitVec.eq_of_toNat_eq
  have h1 := op.isLt; have h2 := ra.isLt; have h3 := imm.isLt
  simp only [opField, BitVec.extractLsb'_toNat, toNat_packWord, Nat.shiftRight_eq_div_pow]
  omega

@[simp] theorem raField_packWord (op ra : Byte) (imm : Half) : raField (packWord op ra imm) = ra := by
  apply BitVec.eq_of_toNat_eq
  have h1 := op.isLt; have h2 := ra.isLt; have h3 := imm.isLt
  simp only [raField, BitVec.extractLsb'_toNat, toNat_packWord, Nat.shiftRight_eq_div_pow]
  omega

@[simp] theorem immField_packWord (op ra : Byte) (imm : Half) : immField (packWord op ra imm) = imm := by
  apply BitVec.eq_of_toNat_eq
  have h1 := op.isLt; have h2 := ra.isLt; have h3 := imm.isLt
  simp only [immField, BitVec.extractLsb'_toNat, toNat_packWord, Nat.shiftRight_eq_div_pow]
  omega

/-- A word is its three fields packed again. -/
theorem packWord_fields (w : Word) : packWord (opField w) (raField w) (immField w) = w := by
  apply BitVec.eq_of_toNat_eq
  rw [toNat_packWord]
  have h := w.isLt
  simp only [opField, raField, immField, BitVec.extractLsb'_toNat, Nat.shiftRight_eq_div_pow]
  omega

/-- Packing is injective: equal words have equal fields. -/
theorem packWord_inj (op ra op' ra' : Byte) (imm imm' : Half) :
    packWord op ra imm = packWord op' ra' imm' ↔ op = op' ∧ ra = ra' ∧ imm = imm' := by
  constructor
  · intro h
    exact ⟨by simpa using congrArg opField h, by simpa using congrArg raField h, by simpa using congrArg immField h⟩
  · rintro ⟨rfl, rfl, rfl⟩; rfl

/-- A mask acts on the three fields separately. -/
theorem packWord_and (op ra op' ra' : Byte) (imm imm' : Half) :
    packWord op ra imm &&& packWord op' ra' imm' = packWord (op &&& op') (ra &&& ra') (imm &&& imm') := by
  apply BitVec.eq_of_getLsbD_eq
  intro k _
  simp only [packWord, BitVec.getLsbD_and, BitVec.getLsbD_append]
  split <;> [rfl; (split <;> rfl)]

end Sys2Proof
end

