-- ==== Sys2Proof/Laws/State.lean ====
section
/-! SUPPORT. One lemma per field of State per update, true by rfl, so that no proof unfolds a record update. The
block's registers are one field of State (`toBlock`), and a lemma about it rewrites every register at once. -/

namespace Sys2Proof.Machine

@[simp] theorem emit_toBlock (e : PortEvent) (s : State) : (emit e s).toBlock = s.toBlock := rfl
@[simp] theorem emit_cfg (e : PortEvent) (s : State) : (emit e s).cfg = s.cfg := rfl
@[simp] theorem emit_pvIn (e : PortEvent) (s : State) : (emit e s).pvIn = s.pvIn := rfl
@[simp] theorem emit_inbox (e : PortEvent) (s : State) : (emit e s).inbox = s.inbox := rfl
@[simp] theorem emit_drawn (e : PortEvent) (s : State) : (emit e s).drawn = s.drawn := rfl
@[simp] theorem emit_faults (e : PortEvent) (s : State) : (emit e s).faults = s.faults := rfl
@[simp] theorem emit_log (e : PortEvent) (s : State) : (emit e s).log = s.log ++ [e] := rfl

@[simp] theorem respond_toBlock (st : Status) (d : Dword) (s : State) : (respond st d s).toBlock = s.toBlock := rfl
@[simp] theorem respond_cfg (st : Status) (d : Dword) (s : State) : (respond st d s).cfg = s.cfg := rfl
@[simp] theorem respond_pvIn (st : Status) (d : Dword) (s : State) : (respond st d s).pvIn = s.pvIn := rfl
@[simp] theorem respond_inbox (st : Status) (d : Dword) (s : State) : (respond st d s).inbox = s.inbox := rfl
@[simp] theorem respond_drawn (st : Status) (d : Dword) (s : State) : (respond st d s).drawn = s.drawn := rfl
@[simp] theorem respond_faults (st : Status) (d : Dword) (s : State) : (respond st d s).faults = s.faults := rfl
@[simp] theorem respond_log (st : Status) (d : Dword) (s : State) : (respond st d s).log = s.log ++ [.response st d] := rfl

@[simp] theorem reject_toBlock (st : Status) (s : State) : (reject st s).toBlock = s.toBlock := rfl
@[simp] theorem reject_cfg (st : Status) (s : State) : (reject st s).cfg = s.cfg := rfl
@[simp] theorem reject_pvIn (st : Status) (s : State) : (reject st s).pvIn = s.pvIn := rfl
@[simp] theorem reject_inbox (st : Status) (s : State) : (reject st s).inbox = s.inbox := rfl
@[simp] theorem reject_drawn (st : Status) (s : State) : (reject st s).drawn = s.drawn := rfl
@[simp] theorem reject_faults (st : Status) (s : State) : (reject st s).faults = s.faults ++ [st] := rfl
@[simp] theorem reject_log (st : Status) (s : State) : (reject st s).log = s.log ++ [.response st 0] := rfl

@[simp] theorem setSrf_toBlock (s : State) : (setSrf s).toBlock = { s.toBlock with srf := true } := rfl
@[simp] theorem setSrf_cfg (s : State) : (setSrf s).cfg = s.cfg := rfl
@[simp] theorem setSrf_pvIn (s : State) : (setSrf s).pvIn = s.pvIn := rfl
@[simp] theorem setSrf_inbox (s : State) : (setSrf s).inbox = s.inbox := rfl
@[simp] theorem setSrf_drawn (s : State) : (setSrf s).drawn = s.drawn := rfl
@[simp] theorem setSrf_faults (s : State) : (setSrf s).faults = s.faults := rfl
@[simp] theorem setSrf_log (s : State) : (setSrf s).log = s.log := rfl

@[simp] theorem clearSrf_toBlock (s : State) : (clearSrf s).toBlock = { s.toBlock with srf := false } := rfl
@[simp] theorem clearSrf_cfg (s : State) : (clearSrf s).cfg = s.cfg := rfl
@[simp] theorem clearSrf_pvIn (s : State) : (clearSrf s).pvIn = s.pvIn := rfl
@[simp] theorem clearSrf_inbox (s : State) : (clearSrf s).inbox = s.inbox := rfl
@[simp] theorem clearSrf_drawn (s : State) : (clearSrf s).drawn = s.drawn := rfl
@[simp] theorem clearSrf_faults (s : State) : (clearSrf s).faults = s.faults := rfl
@[simp] theorem clearSrf_log (s : State) : (clearSrf s).log = s.log := rfl

@[simp] theorem tickEvent_toBlock (s : State) : (tickEvent s).toBlock = { s.toBlock with srf := true } := rfl
@[simp] theorem tickEvent_cfg (s : State) : (tickEvent s).cfg = s.cfg := rfl
@[simp] theorem tickEvent_pvIn (s : State) : (tickEvent s).pvIn = s.pvIn := rfl
@[simp] theorem tickEvent_inbox (s : State) : (tickEvent s).inbox = s.inbox := rfl
@[simp] theorem tickEvent_drawn (s : State) : (tickEvent s).drawn = s.drawn := rfl
@[simp] theorem tickEvent_faults (s : State) : (tickEvent s).faults = s.faults := rfl
@[simp] theorem tickEvent_log (s : State) : (tickEvent s).log = s.log := rfl

@[simp] theorem takeSample_toBlock (s : State) : (takeSample s).toBlock = { s.toBlock with pv := s.pvIn } := rfl
@[simp] theorem takeSample_cfg (s : State) : (takeSample s).cfg = s.cfg := rfl
@[simp] theorem takeSample_pvIn (s : State) : (takeSample s).pvIn = s.pvIn := rfl
@[simp] theorem takeSample_inbox (s : State) : (takeSample s).inbox = s.inbox := rfl
@[simp] theorem takeSample_drawn (s : State) : (takeSample s).drawn = s.drawn := rfl
@[simp] theorem takeSample_faults (s : State) : (takeSample s).faults = s.faults := rfl
@[simp] theorem takeSample_log (s : State) : (takeSample s).log = s.log ++ [.pvReq] := rfl

@[simp] theorem shiftMeasurement_toBlock (s : State) : (shiftMeasurement s).toBlock = { s.toBlock with lastPv := s.pv, pv := s.pvIn } := rfl
@[simp] theorem shiftMeasurement_cfg (s : State) : (shiftMeasurement s).cfg = s.cfg := rfl
@[simp] theorem shiftMeasurement_pvIn (s : State) : (shiftMeasurement s).pvIn = s.pvIn := rfl
@[simp] theorem shiftMeasurement_inbox (s : State) : (shiftMeasurement s).inbox = s.inbox := rfl
@[simp] theorem shiftMeasurement_drawn (s : State) : (shiftMeasurement s).drawn = s.drawn := rfl
@[simp] theorem shiftMeasurement_faults (s : State) : (shiftMeasurement s).faults = s.faults := rfl
@[simp] theorem shiftMeasurement_log (s : State) : (shiftMeasurement s).log = s.log ++ [.pvReq] := rfl

@[simp] theorem hardReset_toBlock (s : State) : (hardReset s).toBlock = Block.reset := rfl
@[simp] theorem hardReset_cfg (s : State) : (hardReset s).cfg = s.cfg := rfl
@[simp] theorem hardReset_pvIn (s : State) : (hardReset s).pvIn = s.pvIn := rfl
@[simp] theorem hardReset_inbox (s : State) : (hardReset s).inbox = s.inbox := rfl
@[simp] theorem hardReset_drawn (s : State) : (hardReset s).drawn = s.drawn := rfl
@[simp] theorem hardReset_faults (s : State) : (hardReset s).faults = s.faults := rfl
@[simp] theorem hardReset_log (s : State) : (hardReset s).log = [] := rfl

@[simp] theorem setOutput_toBlock (u : Int) (s : State) : (setOutput u s).toBlock = { s.toBlock with output := saturate s.cfg u } := rfl
@[simp] theorem setOutput_cfg (u : Int) (s : State) : (setOutput u s).cfg = s.cfg := rfl
@[simp] theorem setOutput_pvIn (u : Int) (s : State) : (setOutput u s).pvIn = s.pvIn := rfl
@[simp] theorem setOutput_inbox (u : Int) (s : State) : (setOutput u s).inbox = s.inbox := rfl
@[simp] theorem setOutput_drawn (u : Int) (s : State) : (setOutput u s).drawn = s.drawn := rfl
@[simp] theorem setOutput_faults (u : Int) (s : State) : (setOutput u s).faults = s.faults := rfl
@[simp] theorem setOutput_log (u : Int) (s : State) : (setOutput u s).log = s.log ++ [.actuate (saturate s.cfg u)] := rfl


@[simp] theorem received_toBlock (s : State) : s.received.toBlock = s.toBlock := by unfold State.received; split <;> rfl
@[simp] theorem received_cfg (s : State) : s.received.cfg = s.cfg := by unfold State.received; split <;> rfl
@[simp] theorem received_log (s : State) : s.received.log = s.log := by unfold State.received; split <;> rfl
@[simp] theorem received_faults (s : State) : s.received.faults = s.faults := by unfold State.received; split <;> rfl
@[simp] theorem received_pvIn (s : State) : s.received.pvIn = s.upcoming.pvIn := by
  unfold State.received State.upcoming; split <;> rfl
@[simp] theorem received_inbox (s : State) : s.received.inbox = s.inbox.drop 1 := by
  unfold State.received; split <;> simp_all

/-- The environment gives an instant exactly when none is placed. -/
theorem received_drawn (s : State) : s.received.drawn = s.drawn + (1 - s.inbox.length) := by
  unfold State.received; split <;> simp [*]

@[simp] theorem given_toBlock (p : Instant) (s : State) : (s.given p).toBlock = s.toBlock := rfl
@[simp] theorem given_cfg (p : Instant) (s : State) : (s.given p).cfg = s.cfg := rfl
@[simp] theorem given_log (p : Instant) (s : State) : (s.given p).log = s.log := rfl
@[simp] theorem given_faults (p : Instant) (s : State) : (s.given p).faults = s.faults := rfl
@[simp] theorem given_upcoming (p : Instant) (s : State) : (s.given p).upcoming = p := rfl
@[simp] theorem given_received (p : Instant) (s : State) : (s.given p).received = { s with pvIn := p.pvIn } := rfl

/-- The next instant is the first of the future. -/
theorem future_zero (s : State) : s.future 0 = s.upcoming := by
  unfold State.future State.upcoming; cases s.inbox <;> simp

/-- Once the next instant is taken, the future is what came after it. -/
theorem future_received (s : State) (k : Nat) : s.received.future k = s.future (k + 1) := by
  unfold State.future State.received
  cases h : s.inbox with
  | nil => simp [Nat.add_comm, Nat.add_left_comm]
  | cons p rest => simp

/-- The future is the placed instants and the environment's count, and nothing else. -/
theorem future_congr (s t : State) (hi : s.inbox = t.inbox) (hd : s.drawn = t.drawn) : s.future = t.future := by
  funext k; unfold State.future; rw [hi, hd]

/-- The block after the capture registers were cleared. -/
@[simp] theorem clearDebug_toBlock (s : State) : (clearDebug s).toBlock =
    if s.cfg.hasDebug then { s.toBlock with dbgE := 0, dbgP := 0, dbgI := 0, dbgD := 0 } else s.toBlock := by
  unfold clearDebug; split <;> rfl
@[simp] theorem clearDebug_cfg (s : State) : (clearDebug s).cfg = s.cfg := by unfold clearDebug; split <;> rfl
@[simp] theorem clearDebug_pvIn (s : State) : (clearDebug s).pvIn = s.pvIn := by unfold clearDebug; split <;> rfl
@[simp] theorem clearDebug_inbox (s : State) : (clearDebug s).inbox = s.inbox := by unfold clearDebug; split <;> rfl
@[simp] theorem clearDebug_drawn (s : State) : (clearDebug s).drawn = s.drawn := by unfold clearDebug; split <;> rfl
@[simp] theorem clearDebug_faults (s : State) : (clearDebug s).faults = s.faults := by unfold clearDebug; split <;> rfl
@[simp] theorem clearDebug_log (s : State) : (clearDebug s).log = s.log := by unfold clearDebug; split <;> rfl

/-- The block after `do_reset()` (40_mode_reset.md R100). -/
@[simp] theorem doReset_toBlock (s : State) : (doReset s).toBlock =
    if s.cfg.hasDebug then
      { s.toBlock with errSum := 0, lastPv := 0, pv := 0, dbgE := 0, dbgP := 0, dbgI := 0, dbgD := 0 }
    else { s.toBlock with errSum := 0, lastPv := 0, pv := 0 } := by
  simp [doReset]
@[simp] theorem doReset_cfg (s : State) : (doReset s).cfg = s.cfg := by simp [doReset]
@[simp] theorem doReset_pvIn (s : State) : (doReset s).pvIn = s.pvIn := by simp [doReset]
@[simp] theorem doReset_inbox (s : State) : (doReset s).inbox = s.inbox := by simp [doReset]
@[simp] theorem doReset_drawn (s : State) : (doReset s).drawn = s.drawn := by simp [doReset]
@[simp] theorem doReset_faults (s : State) : (doReset s).faults = s.faults := by simp [doReset]
@[simp] theorem doReset_log (s : State) : (doReset s).log = s.log := by simp [doReset]

/-- The block after a capture (41_cycle_control_law.md R132). -/
@[simp] theorem captureDebug_toBlock (e p i d : Int) (s : State) : (captureDebug e p i d s).toBlock =
    if s.cfg.hasDebug then
      { s.toBlock with dbgE := BitVec.ofInt 16 e, dbgP := BitVec.ofInt 64 p, dbgI := BitVec.ofInt 64 i, dbgD := BitVec.ofInt 64 d }
    else s.toBlock := by
  unfold captureDebug; split <;> rfl
@[simp] theorem captureDebug_cfg (e p i d : Int) (s : State) : (captureDebug e p i d s).cfg = s.cfg := by
  unfold captureDebug; split <;> rfl
@[simp] theorem captureDebug_pvIn (e p i d : Int) (s : State) : (captureDebug e p i d s).pvIn = s.pvIn := by
  unfold captureDebug; split <;> rfl
@[simp] theorem captureDebug_inbox (e p i d : Int) (s : State) : (captureDebug e p i d s).inbox = s.inbox := by
  unfold captureDebug; split <;> rfl
@[simp] theorem captureDebug_drawn (e p i d : Int) (s : State) : (captureDebug e p i d s).drawn = s.drawn := by
  unfold captureDebug; split <;> rfl
@[simp] theorem captureDebug_faults (e p i d : Int) (s : State) : (captureDebug e p i d s).faults = s.faults := by
  unfold captureDebug; split <;> rfl
@[simp] theorem captureDebug_log (e p i d : Int) (s : State) : (captureDebug e p i d s).log = s.log := by
  unfold captureDebug; split <;> rfl
@[simp] theorem writeReg_cfg (r : Reg) (imm : Half) (s : State) : (writeReg r imm s).cfg = s.cfg := by cases r <;> rfl
@[simp] theorem writeReg_pvIn (r : Reg) (imm : Half) (s : State) : (writeReg r imm s).pvIn = s.pvIn := by cases r <;> rfl
@[simp] theorem writeReg_inbox (r : Reg) (imm : Half) (s : State) : (writeReg r imm s).inbox = s.inbox := by cases r <;> rfl
@[simp] theorem writeReg_drawn (r : Reg) (imm : Half) (s : State) : (writeReg r imm s).drawn = s.drawn := by cases r <;> rfl
@[simp] theorem writeReg_faults (r : Reg) (imm : Half) (s : State) : (writeReg r imm s).faults = s.faults := by cases r <;> rfl
@[simp] theorem writeReg_log (r : Reg) (imm : Half) (s : State) : (writeReg r imm s).log = s.log := by cases r <;> rfl
@[simp] theorem writeIndex_cfg (ra : Byte) (imm : Half) (s : State) : (writeIndex ra imm s).cfg = s.cfg := by
  unfold writeIndex; split <;> simp
@[simp] theorem writeIndex_pvIn (ra : Byte) (imm : Half) (s : State) : (writeIndex ra imm s).pvIn = s.pvIn := by
  unfold writeIndex; split <;> simp
@[simp] theorem writeIndex_inbox (ra : Byte) (imm : Half) (s : State) : (writeIndex ra imm s).inbox = s.inbox := by
  unfold writeIndex; split <;> simp
@[simp] theorem writeIndex_drawn (ra : Byte) (imm : Half) (s : State) : (writeIndex ra imm s).drawn = s.drawn := by
  unfold writeIndex; split <;> simp
@[simp] theorem writeIndex_faults (ra : Byte) (imm : Half) (s : State) : (writeIndex ra imm s).faults = s.faults := by
  unfold writeIndex; split <;> simp
@[simp] theorem writeIndex_log (ra : Byte) (imm : Half) (s : State) : (writeIndex ra imm s).log = s.log := by
  unfold writeIndex; split <;> simp

/-- Two states are equal when their seven fields are. -/
theorem State.ext_fields (s t : State) (hb : s.toBlock = t.toBlock) (hc : s.cfg = t.cfg) (hp : s.pvIn = t.pvIn)
    (hi : s.inbox = t.inbox) (hd : s.drawn = t.drawn) (hl : s.log = t.log) (hf : s.faults = t.faults) : s = t := by
  cases s; cases t; simp_all

end Sys2Proof.Machine
end

