-- ==== Sys2Proof/Laws/Ops.lean ====
section
/-! SUPPORT. One lemma per shared operation that says once what it can do; proofs cite these instead of unfolding. -/

namespace Sys2Proof.Machine

/-! The record of outputs. -/

@[simp] theorem actuateTrace_append (l m : List PortEvent) : actuateTrace (l ++ m) = actuateTrace l ++ actuateTrace m := by
  simp [actuateTrace]
@[simp] theorem responses_append (l m : List PortEvent) : responses (l ++ m) = responses l ++ responses m := by
  simp [responses]
@[simp] theorem sampleRequests_append (l m : List PortEvent) : sampleRequests (l ++ m) = sampleRequests l + sampleRequests m := by
  simp [sampleRequests]
@[simp] theorem actuateTrace_nil : actuateTrace [] = [] := rfl
@[simp] theorem actuateTrace_pvReq (l : List PortEvent) : actuateTrace (.pvReq :: l) = actuateTrace l := rfl
@[simp] theorem actuateTrace_actuate (v : Byte) (l : List PortEvent) : actuateTrace (.actuate v :: l) = v :: actuateTrace l := rfl
@[simp] theorem actuateTrace_response (st : Status) (d : Dword) (l : List PortEvent) :
    actuateTrace (.response st d :: l) = actuateTrace l := rfl
@[simp] theorem responses_nil : responses [] = [] := rfl
@[simp] theorem responses_pvReq (l : List PortEvent) : responses (.pvReq :: l) = responses l := rfl
@[simp] theorem responses_actuate (v : Byte) (l : List PortEvent) : responses (.actuate v :: l) = responses l := rfl
@[simp] theorem responses_response (st : Status) (d : Dword) (l : List PortEvent) :
    responses (.response st d :: l) = (statusCode st, d) :: responses l := rfl
@[simp] theorem sampleRequests_nil : sampleRequests [] = 0 := rfl
@[simp] theorem sampleRequests_pvReq (l : List PortEvent) : sampleRequests (.pvReq :: l) = sampleRequests l + 1 := by
  simp [sampleRequests]
@[simp] theorem sampleRequests_actuate (v : Byte) (l : List PortEvent) : sampleRequests (.actuate v :: l) = sampleRequests l := by
  simp [sampleRequests]
@[simp] theorem sampleRequests_response (st : Status) (d : Dword) (l : List PortEvent) :
    sampleRequests (.response st d :: l) = sampleRequests l := by
  simp [sampleRequests]

/-! Checks and rejection. -/

@[simp] theorem runIfOk_ok (run : State → State) (s : State) : runIfOk .ok run s = run s := by simp [runIfOk]

theorem runIfOk_reject (st : Status) (run : State → State) (s : State) (h : st ≠ .ok) : runIfOk st run s = reject st s := by
  simp [runIfOk, h]

/-- A command whose checks gave `st` either ran or was rejected with `st`. -/
theorem runIfOk_cases (st : Status) (run : State → State) (s : State) :
    (st = .ok ∧ runIfOk st run s = run s) ∨ (st ≠ .ok ∧ runIfOk st run s = reject st s) := by
  unfold runIfOk; split <;> simp_all

/-! The register map. -/

@[simp] theorem regAt_regIndex (r : Reg) : regAt (regIndex r) = some r := by cases r <;> rfl

/-- An index names at most the register whose index it is. -/
theorem regAt_eq_some (ra : Byte) (r : Reg) : regAt ra = some r ↔ ra = regIndex r := by
  constructor
  · intro h
    apply BitVec.eq_of_toNat_eq
    unfold regAt at h
    split at h <;> cases h <;> simpa using by assumption
  · rintro rfl; simp

/-- What is implemented: the ten registers always, the four capture registers with HAS_DEBUG. -/
theorem implementedReg_eq_some (hd : Bool) (ra : Byte) (r : Reg) :
    implementedReg hd ra = some r ↔ ra = regIndex r ∧ (isDebugReg r = true → hd = true) := by
  unfold implementedReg
  rw [← regAt_eq_some]
  cases h : regAt ra with
  | none => simp
  | some q =>
    cases hq : isDebugReg q <;> cases hd <;> simp_all <;> rintro rfl <;> simp_all

/-- No register is implemented exactly from 0x0E on, and from 0x0A on without HAS_DEBUG. -/
theorem implementedReg_eq_none (hd : Bool) (ra : Byte) :
    implementedReg hd ra = none ↔ 0x0E ≤ ra.toNat ∨ (0x0A ≤ ra.toNat ∧ hd = false) := by
  unfold implementedReg regAt
  split
  · rename_i r h
    split at h <;> cases h <;> cases hd <;> simp_all [isDebugReg]
  · rename_i h
    split at h <;> cases h
    simp only [true_iff]; left
    by_contra hlt
    have : ra.toNat < 14 := by omega
    interval_cases ra.toNat <;> simp_all

/-! The operand checks, as ranges of the fields. -/

/-- SETMODE's check (60_exceptions.md R186). -/
theorem setmodeStatus_eq (imm : Half) : setmodeStatus imm = if 1 < imm.toNat then .errRange else .ok := by
  unfold setmodeStatus setmodeInRange zext16
  by_cases h : imm.toNat ≤ 1
  · simp [h]
  · simp [h]

/-- RD's check (60_exceptions.md R184). -/
theorem rdStatus_eq (hd : Bool) (ra : Byte) : rdStatus hd ra =
    if ¬ (ra.toNat ≤ 0x09 ∨ (ra.toNat ≤ 0x0D ∧ hd = true)) then .errReg else .ok := by
  unfold rdStatus
  cases h : implementedReg hd ra with
  | none =>
    have := (implementedReg_eq_none _ _).1 h
    rw [if_pos]
    cases hd <;> simp_all <;> omega
  | some r =>
    have := (implementedReg_eq_some _ _ _).1 h
    obtain ⟨rfl, h2⟩ := this
    cases r <;> simp_all [regIndex, isDebugReg]

/-- WR's checks in their order (60_exceptions.md R184 to R186, R188). -/
theorem wrStatus_eq (hd : Bool) (ra : Byte) (imm : Half) : wrStatus hd ra imm =
    if ¬ (ra.toNat ≤ 0x09 ∨ (ra.toNat ≤ 0x0D ∧ hd = true)) then .errReg else if ¬ ra.toNat ≤ 4 then .errRo
    else if ra.toNat ≤ 1 ∧ 255 < imm.toNat then .errRange else .ok := by
  unfold wrStatus
  cases h : implementedReg hd ra with
  | none =>
    have := (implementedReg_eq_none _ _).1 h
    rw [if_pos]
    cases hd <;> simp_all <;> omega
  | some r =>
    have := (implementedReg_eq_some _ _ _).1 h
    obtain ⟨rfl, h2⟩ := this
    cases r <;> simp_all [regIndex, regWritable, wrInRange, zext16, isDebugReg]
    all_goals (by_cases hh : imm.toNat ≤ 255 <;> simp [hh])

/-! What the commands leave. -/

/-- The full reset, field by field (40_mode_reset.md R100). -/
theorem doReset_eq (s : State) : doReset s = { s with
    errSum := 0, lastPv := 0, pv := 0,
    dbgE := if s.cfg.hasDebug then 0 else s.dbgE, dbgP := if s.cfg.hasDebug then 0 else s.dbgP,
    dbgI := if s.cfg.hasDebug then 0 else s.dbgI, dbgD := if s.cfg.hasDebug then 0 else s.dbgD } := by
  apply State.ext_fields <;> simp
  cases s.cfg.hasDebug <;> simp

/-- RD of an implemented register answers its value and changes nothing else (43_register_access.md R165). -/
theorem exec_rd_regIndex (s : State) (r : Reg) (h : isDebugReg r = true → s.cfg.hasDebug = true) :
    exec (.rd (regIndex r)) s = .next { s with log := s.log ++ [.response .ok (readReg s.toBlock r)] } := by
  have hi : implementedReg s.cfg.hasDebug (regIndex r) = some r := (implementedReg_eq_some _ _ _).2 ⟨rfl, h⟩
  simp only [exec, execRd, rdStatus, hi, runIfOk_ok, readIndex]; rfl

/-- WR of a writable register with a value in range writes it (43_register_access.md R168). -/
theorem exec_wr_regIndex (s : State) (r : Reg) (imm : Half) (h : regWritable r = true) (hv : wrInRange r imm = true) :
    exec (.wr (regIndex r) imm) s = .next (respond .ok 0 (writeReg r imm s)) := by
  have hi : implementedReg s.cfg.hasDebug (regIndex r) = some r := (implementedReg_eq_some _ _ _).2 ⟨rfl, by cases r <;> simp_all [regWritable, isDebugReg]⟩
  simp only [exec, execWr, wrStatus, hi, h, hv, Bool.not_true, Bool.false_eq_true, if_false, runIfOk_ok, writeIndex]

/-! The control law. -/

@[simp] theorem controlLaw_cfg (s : State) : (controlLaw s).cfg = s.cfg := by simp [controlLaw]
@[simp] theorem controlLaw_pvIn (s : State) : (controlLaw s).pvIn = s.pvIn := by simp [controlLaw]
@[simp] theorem controlLaw_inbox (s : State) : (controlLaw s).inbox = s.inbox := by simp [controlLaw]
@[simp] theorem controlLaw_drawn (s : State) : (controlLaw s).drawn = s.drawn := by simp [controlLaw]
@[simp] theorem controlLaw_faults (s : State) : (controlLaw s).faults = s.faults := by simp [controlLaw]

/-- The law emits one `Actuate`, with the value it stores. -/
@[simp] theorem controlLaw_log (s : State) :
    (controlLaw s).log = s.log ++ [.actuate (saturate s.cfg (lawU s.cfg s.toBlock))] := by simp [controlLaw]

/-- The block after one control cycle (41_cycle_control_law.md R131). -/
theorem controlLaw_toBlock (s : State) : (controlLaw s).toBlock =
    { s.toBlock with
      errSum := BitVec.ofInt 32 (newErrSum s.cfg s.toBlock)
      output := saturate s.cfg (lawU s.cfg s.toBlock)
      dbgE := if s.cfg.hasDebug then BitVec.ofInt 16 (lawError s.toBlock) else s.dbgE
      dbgP := if s.cfg.hasDebug then BitVec.ofInt 64 (pTerm s.toBlock) else s.dbgP
      dbgI := if s.cfg.hasDebug then BitVec.ofInt 64 (iTerm s.cfg s.toBlock) else s.dbgI
      dbgD := if s.cfg.hasDebug then BitVec.ofInt 64 (dTerm s.toBlock) else s.dbgD } := by
  cases h : s.cfg.hasDebug <;> simp [controlLaw, h]

/-- The guard of CYCLE, spelled out (41_cycle_control_law.md R120 step 3). -/
theorem lawDue_iff (b : Block) : lawDue b = true ↔ b.srf = true ∧ b.mode = 0x01 := by simp [lawDue, isAuto]

/-- The guard is read before or after steps 1 and 2 with the same answer (41_cycle_control_law.md R121 g). -/
theorem lawDue_shiftMeasurement (s : State) : lawDue (shiftMeasurement s).toBlock = lawDue s.toBlock := rfl

theorem lawIfDue_of_due (s : State) (h : lawDue s.toBlock = true) : lawIfDue s = controlLaw (clearSrf s) := by simp [lawIfDue, h]

theorem lawIfDue_of_not_due (s : State) (h : lawDue s.toBlock = false) : lawIfDue s = s := by simp [lawIfDue, h]

@[simp] theorem lawIfDue_cfg (s : State) : (lawIfDue s).cfg = s.cfg := by unfold lawIfDue; split <;> simp
@[simp] theorem lawIfDue_pvIn (s : State) : (lawIfDue s).pvIn = s.pvIn := by unfold lawIfDue; split <;> simp
@[simp] theorem lawIfDue_inbox (s : State) : (lawIfDue s).inbox = s.inbox := by unfold lawIfDue; split <;> simp
@[simp] theorem lawIfDue_drawn (s : State) : (lawIfDue s).drawn = s.drawn := by unfold lawIfDue; split <;> simp
@[simp] theorem lawIfDue_faults (s : State) : (lawIfDue s).faults = s.faults := by unfold lawIfDue; split <;> simp

/-! Commands and instants. -/

/-- The state a command leaves, as a function: every meaning answers one. -/
theorem exec_answers_next (i : Instr) (s : State) :
    ∃ t, exec i s = .next t ∧ t.cfg = s.cfg ∧ t.pvIn = s.pvIn ∧ t.inbox = s.inbox ∧ t.drawn = s.drawn := by
  cases i with
  | setmode imm =>
    refine ⟨_, rfl, ?_⟩
    obtain ⟨_, h⟩ | ⟨_, h⟩ := runIfOk_cases (setmodeStatus imm) (setmode imm) s <;> rw [h] <;> simp [setmode]
  | reset => exact ⟨_, rfl, by simp⟩
  | cycle => exact ⟨_, rfl, by simp⟩
  | setout imm => exact ⟨_, rfl, by simp⟩
  | rd ra =>
    refine ⟨_, rfl, ?_⟩
    obtain ⟨_, h⟩ | ⟨_, h⟩ := runIfOk_cases (rdStatus s.cfg.hasDebug ra) (fun t => respond .ok (readIndex t ra) t) s <;>
      rw [h] <;> simp
  | wr ra imm =>
    refine ⟨_, rfl, ?_⟩
    obtain ⟨_, h⟩ | ⟨_, h⟩ :=
      runIfOk_cases (wrStatus s.cfg.hasDebug ra imm) (fun t => respond .ok 0 (writeIndex ra imm t)) s <;> rw [h] <;> simp

end Sys2Proof.Machine
end

