-- ==== Sys2Proof/Laws/PerInstr.lean ====
section
/-! SUPPORT. Per-instruction facts about syntax: the fields of each command's word (30_encoding.md R73, R74). -/

namespace Sys2Proof.Laws.Fields

/-- The fields of a command's word: its opcode, and zero in every field its format does not use
(30_encoding.md R73, R74). -/
def Statement (i : Instr) : Prop :=
  opField (encode i) = (match i with
    | .setmode _ => 0x01 | .reset => 0x02 | .cycle => 0x03 | .setout _ => 0x04 | .rd _ => 0x05 | .wr _ _ => 0x06) ∧
  raField (encode i) = (match i with
    | .setmode _ => 0 | .reset => 0 | .cycle => 0 | .setout _ => 0 | .rd ra => ra | .wr ra _ => ra) ∧
  immField (encode i) = (match i with
    | .setmode imm => imm | .reset => 0 | .cycle => 0 | .setout imm => imm | .rd _ => 0 | .wr _ imm => imm)

theorem setmode (imm : Half) : Statement (.setmode imm) := by simp [Statement, encode]
theorem reset : Statement .reset := by simp [Statement, encode]
theorem cycle : Statement .cycle := by simp [Statement, encode]
theorem setout (imm : Half) : Statement (.setout imm) := by simp [Statement, encode]
theorem rd (ra : Byte) : Statement (.rd ra) := by simp [Statement, encode]
theorem wr (ra : Byte) (imm : Half) : Statement (.wr ra imm) := by simp [Statement, encode]

end Sys2Proof.Laws.Fields
end

