-- ==== Sys2Proof/Laws/Run.lean ====
section
/-! SUPPORT. Runs of the machine: one step at a time, and a property that every step keeps. -/

namespace Sys2Proof.Machine

/-- A run of no steps. -/
theorem run_zero (s : State) : Host.Core.run core 0 s = .next s := rfl

/-- A run whose first step answers `t` goes on from `t`. -/
theorem run_succ (k : Nat) (s t : State) (h : step s = .next t) :
    Host.Core.run core (k + 1) s = Host.Core.run core k t := by
  have h' : core.step s = .next t := h
  simp only [Host.Core.run]
  rw [h']

/-- A property that every step keeps holds at the end of every run. -/
theorem run_keeps (P : State → Prop) (hstep : ∀ s, P s → ∃ t, step s = .next t ∧ P t) (k : Nat) (s : State) (h : P s) :
    ∃ t : State, Host.Core.run core k s = .next t ∧ P t := by
  induction k generalizing s with
  | zero => exact ⟨s, run_zero s, h⟩
  | succ k ih =>
    obtain ⟨t, ht, hP⟩ := hstep s h
    obtain ⟨u, hu, hu'⟩ := ih t hP
    exact ⟨u, (run_succ k s t ht).trans hu, hu'⟩

/-- A step at an instant that is one command word and nothing else. -/
theorem step_command (s : State) (w : Word) (v : Byte) (h : s.upcoming = commandInstant w v) :
    step s = command w s.received := by
  simp only [step, h, instant, commandInstant, commandIfAny]
  unfold thenTick
  cases command w s.received <;> simp

/-- Everything a step can be: a hard reset, or a command if any and then a tick if any, on the state as the instant's
inputs find it. -/
theorem step_cases (s : State) : ∃ t, step s = .next t ∧ t.cfg = s.cfg ∧ t.inbox = s.received.inbox ∧
    t.drawn = s.received.drawn ∧
    ((s.upcoming.rst = true ∧ t = hardReset s.received) ∨
      (s.upcoming.rst = false ∧ ∃ u, commandIfAny s.upcoming.cmd s.received = .next u ∧
        t = if s.upcoming.tick then tickEvent u else u)) := by
  cases hr : s.upcoming.rst with
  | true => exact ⟨hardReset s.received, by simp [step, instant, hr], by simp, by simp, by simp, Or.inl ⟨rfl, rfl⟩⟩
  | false =>
    have : ∃ u, commandIfAny s.upcoming.cmd s.received = .next u ∧ u.cfg = s.cfg ∧ u.inbox = s.received.inbox ∧
        u.drawn = s.received.drawn := by
      cases s.upcoming.cmd with
      | none => exact ⟨_, rfl, by simp, rfl, rfl⟩
      | some w =>
        simp only [commandIfAny, command]
        cases decode w with
        | ok i =>
          obtain ⟨t, h1, h2, -, h4, h5⟩ := exec_answers_next i s.received
          exact ⟨t, h1, by simpa using h2, h4, h5⟩
        | error e => exact ⟨_, rfl, by simp, by simp, by simp⟩
    obtain ⟨u, h1, h2, h3, h4⟩ := this
    refine ⟨if s.upcoming.tick then tickEvent u else u, by simp [step, instant, hr, h1, thenTick], ?_, ?_, ?_,
      Or.inr ⟨rfl, u, h1, rfl⟩⟩ <;> split <;> simp_all

/-- A step leaves the future without its first instant. -/
theorem step_future (s t : State) (h : step s = .next t) (k : Nat) : t.future k = s.future (k + 1) := by
  obtain ⟨u, hu, -, hi, hd, -⟩ := step_cases s
  rw [h] at hu; cases hu
  rw [future_congr t s.received hi hd, future_received]

end Sys2Proof.Machine
end

