-- ==== Sys2Proof/Tests/Slice0.lean ====
section
/-! SUPPORT. Tests of the model (expected values from spec/95_test_vectors.md and spec/30_encoding.md, or worked by hand
from the rules), and for every statement with hypotheses a concrete state that meets them. -/

namespace Sys2Proof.Tests

open Sys2Proof.Machine

/-! ## Helpers -/

/-- TCFG-A of 95_test_vectors.md 0.1. -/
def cfgA : Config := { maxErrorSum := 1000, minOutput := 0, maxOutput := 255, scalingFactor := 10, hasDebug := true }

/-- TCFG-A': TCFG-A without the debug registers. -/
def cfgA' : Config := { cfgA with hasDebug := false }

/-- TCFG-B. -/
def cfgB : Config := { maxErrorSum := 2147483647, minOutput := 10, maxOutput := 200, scalingFactor := 128, hasDebug := true }

/-- TCFG-C. -/
def cfgC : Config := { maxErrorSum := 0, minOutput := 128, maxOutput := 128, scalingFactor := 1, hasDebug := true }

/-- A state in the row notation of 95_test_vectors.md 0.2, with an empty record. -/
def row (c : Config) (sp mode gp gi gd pv lpv : Nat) (es : Int) (out : Nat) (srf : Bool) : State :=
  { State.resetWith c 0 [] with
    setpoint := BitVec.ofNat 8 sp, mode := BitVec.ofNat 8 mode, gainP := BitVec.ofNat 16 gp, gainI := BitVec.ofNat 16 gi,
    gainD := BitVec.ofNat 16 gd, pv := BitVec.ofNat 8 pv, lastPv := BitVec.ofNat 8 lpv, errSum := BitVec.ofInt 32 es,
    output := BitVec.ofNat 8 out, srf := srf }

/-- The same row with values in the capture registers. -/
def withDbg (e p i d : Int) (s : State) : State :=
  { s with dbgE := BitVec.ofInt 16 e, dbgP := BitVec.ofInt 64 p, dbgI := BitVec.ofInt 64 i, dbgD := BitVec.ofInt 64 d }

/-- The same state with `inputs` to come. -/
def coming (inputs : List Instant) (s : State) : State := { s with inbox := inputs }

/-- One step at which the host issues `w` and the sample port shows `sample`. -/
def issue (w : Word) (sample : Byte) (s : State) : Host.Outcome State Fault Refusal :=
  step (coming [commandInstant w sample] s)

/-- What a state shows: the row of 0.2, then DBG_E, DBG_P, DBG_I, DBG_D, and everything that left the block. -/
def shown (s : State) : List Int × List PortEvent :=
  ([s.setpoint.toNat, s.mode.toNat, s.gainP.toNat, s.gainI.toNat, s.gainD.toNat, s.pv.toNat, s.lastPv.toNat, s.errSum.toInt,
    s.output.toNat, s.srf.toNat, s.dbgE.toInt, s.dbgP.toInt, s.dbgI.toInt, s.dbgD.toInt], s.log)

/-- What an outcome shows, when it is a next state. -/
def seen (o : Host.Outcome State Fault Refusal) : Option (List Int × List PortEvent) :=
  match o with
  | .next t => some (shown t)
  | .fault _ => none
  | .refused _ => none

/-- The last thing an outcome's block emitted, when it is a next state whose registers are those of `s`. -/
def answerKeeping (s : State) (o : Host.Outcome State Fault Refusal) : Option PortEvent :=
  match o with
  | .next t => if t.toBlock = s.toBlock ∧ t.log.length = s.log.length + 1 then t.log.getLast? else none
  | .fault _ => none
  | .refused _ => none

/-- The recorded faults of the run, when the outcome is a next state. -/
def faultsAfter (o : Host.Outcome State Fault Refusal) : Option (List Status) :=
  match o with
  | .next t => some t.faults
  | .fault _ => none
  | .refused _ => none

/-! ## Well-formedness: one ill-formed command for each check -/

theorem test_wellFormed_accepts_every_form :
    WellFormed false (.setmode 1) ∧ WellFormed false .reset ∧ WellFormed false .cycle ∧ WellFormed false (.setout 0x8000) ∧
    WellFormed false (.rd 0x09) ∧ WellFormed true (.rd 0x0D) ∧ WellFormed false (.wr 0x01 0x00FF) ∧
    WellFormed false (.wr 0x04 0xFFFF) := by decide
theorem test_wellFormed_refuses_setmode_2 : WellFormed true (.setmode 2) = false := by decide
theorem test_wellFormed_refuses_rd_unimplemented : WellFormed true (.rd 0x0E) = false := by decide
theorem test_wellFormed_refuses_rd_debug_absent : WellFormed false (.rd 0x0A) = false := by decide
theorem test_wellFormed_refuses_wr_read_only : WellFormed true (.wr 0x05 0) = false := by decide
theorem test_wellFormed_refuses_wr_wide_value : WellFormed true (.wr 0x00 0x0100) = false := by decide
theorem test_wellFormed_refuses_wr_unimplemented : WellFormed true (.wr 0x0E 0) = false := by decide

/-! ## Decoding: words written out bit by bit from 30_encoding.md R71 to R74, fields `op_ra_imm` -/

theorem test_decode_setmode : decode 0b00000001_00000000_0000000000000001 = .ok (.setmode 1) := by decide
theorem test_decode_reset : decode 0b00000010_00000000_0000000000000000 = .ok .reset := by decide
theorem test_decode_cycle : decode 0b00000011_00000000_0000000000000000 = .ok .cycle := by decide
theorem test_decode_setout : decode 0b00000100_00000000_1111111111111011 = .ok (.setout 0xFFFB) := by decide
theorem test_decode_rd : decode 0b00000101_00001101_0000000000000000 = .ok (.rd 0x0D) := by decide
theorem test_decode_wr : decode 0b00000110_00000010_0000000100101100 = .ok (.wr 0x02 300) := by decide
/-- 95_test_vectors.md 2.2 and 2.9. -/
theorem test_decode_rejects :
    decode 0x00000000 = .error .illegalOpcode ∧ decode 0x07000000 = .error .illegalOpcode ∧
    decode 0xFFFFFFFF = .error .illegalOpcode ∧ decode 0x01010005 = .error .reservedField ∧
    decode 0x02010000 = .error .reservedField ∧ decode 0x03000001 = .error .reservedField ∧
    decode 0x04010005 = .error .reservedField ∧ decode 0x05300001 = .error .reservedField := by decide
theorem test_decodeTableWord :
    decodeTableWord 32 0x0604FFFF = some (.wr 0x04 0xFFFF) ∧ decodeTableWord 32 0x03000001 = none := by decide
theorem test_encode : encode (.setout 0xFFFF) = 0x0400FFFF ∧ encode (.wr 0x01 0x00FF) = 0x060100FF ∧
    encode (.rd 0x0D) = 0x050D0000 := by decide
/-- 30_encoding.md R82 and R84. -/
theorem test_assembly :
    assembly (.setmode 1) = "SETMODE AUTO" ∧ assembly (.setout 0xFFFF) = "SETOUT -1" ∧ assembly (.rd 0x07) = "RD ERR_SUM" ∧
    assembly (.rd 0x0E) = "RD r0x0E" ∧ assembly (.wr 0x04 0xFFFF) = "WR GAIN_D, 65535" := by decide

/-! ## One step of each command -/

/-- The start state of 95_test_vectors.md 2.3, without its trace. -/
def s23 : State := withDbg 5 10 500 1 (row cfgA 100 0 2 1 1 80 79 500 40 true)

/-- 95_test_vectors.md 2.3. -/
theorem test_setmode_auto : seen (issue 0x01000001 7 s23) =
    some ([100, 1, 2, 1, 1, 0, 0, 0, 40, 1, 0, 0, 0, 0], [.response .ok 0]) := by decide
theorem test_setmode_out_of_range :
    answerKeeping s23 (issue 0x01000002 7 s23) = some (.response .errRange 0) ∧
    answerKeeping s23 (issue 0x01010005 7 s23) = some (.response .errField 0) := by decide
theorem test_reset : seen (issue 0x02000000 7 s23) =
    some ([100, 0, 2, 1, 1, 0, 0, 0, 40, 1, 0, 0, 0, 0], [.response .ok 0]) := by decide
/-- Without HAS_DEBUG the reset writes no capture register (10_state.md R36); by hand. -/
theorem test_reset_no_debug : seen (issue 0x02000000 7 (withDbg 5 0 0 0 (row cfgA' 1 1 2 3 4 5 6 7 8 false))) =
    some ([1, 1, 2, 3, 4, 0, 0, 0, 8, 0, 5, 0, 0, 0], [.response .ok 0]) := by decide

/-- 95_test_vectors.md 2.4: MODE 0x00 with SRF 1, MODE 0x01 with SRF 0, MODE 0x02 with SRF 1, and the law. -/
theorem test_cycle_guard :
    seen (issue 0x03000000 95 (row cfgA 100 0 2 1 1 90 77 5 42 true)) =
      some ([100, 0, 2, 1, 1, 95, 90, 5, 42, 1, 0, 0, 0, 0], [.pvReq, .response .ok 0]) ∧
    seen (issue 0x03000000 95 (row cfgA 100 1 2 1 1 90 77 5 42 false)) =
      some ([100, 1, 2, 1, 1, 95, 90, 5, 42, 0, 0, 0, 0, 0], [.pvReq, .response .ok 0]) ∧
    seen (issue 0x03000000 95 (row cfgA 100 2 2 1 1 90 77 5 42 true)) =
      some ([100, 2, 2, 1, 1, 95, 90, 5, 42, 1, 0, 0, 0, 0], [.pvReq, .response .ok 0]) ∧
    seen (issue 0x03000000 95 (row cfgA 100 1 2 1 1 90 77 5 42 true)) =
      some ([100, 1, 2, 1, 1, 95, 90, 10, 2, 0, 5, 10, 10, 5], [.pvReq, .actuate 2, .response .ok 0]) := by decide
/-- 95_test_vectors.md 2.5, rows A2, A9, B1, B3 and C1. -/
theorem test_cycle_law :
    seen (issue 0x03000000 70 (row cfgA 50 1 3 2 4 60 33 0 77 true)) =
      some ([50, 1, 3, 2, 4, 70, 60, -20, 0, 0, -20, -60, -40, 40], [.pvReq, .actuate 0, .response .ok 0]) ∧
    seen (issue 0x03000000 110 (row cfgA 100 1 0 1 0 0 33 (-995) 77 true)) =
      some ([100, 1, 0, 1, 0, 110, 0, -1000, 0, 0, -10, 0, -1000, 0], [.pvReq, .actuate 0, .response .ok 0]) ∧
    seen (issue 0x03000000 0 (row cfgB 255 1 65535 65535 65535 0 33 2147483647 77 true)) =
      some ([255, 1, 65535, 65535, 65535, 0, 0, 2147483647, 200, 0, 255, 16711425, 140735340806145, 0],
        [.pvReq, .actuate 200, .response .ok 0]) ∧
    seen (issue 0x03000000 255 (row cfgB 0 1 65535 65535 65535 0 33 (-2147483647) 77 true)) =
      some ([0, 1, 65535, 65535, 65535, 255, 0, -2147483647, 10, 0, -255, -16711425, -140735340806145, 16711425],
        [.pvReq, .actuate 10, .response .ok 0]) ∧
    seen (issue 0x03000000 90 (row cfgC 100 1 2 1 1 88 33 0 77 true)) =
      some ([100, 1, 2, 1, 1, 90, 88, 0, 128, 0, 10, 20, 0, 2], [.pvReq, .actuate 128, .response .ok 0]) := by decide

/-- 95_test_vectors.md 2.6. -/
theorem test_setout_high_and_low :
    seen (issue 0x040000C9 0 (row cfgB 1 1 2 3 4 5 6 7 8 true)) =
      some ([1, 1, 2, 3, 4, 5, 6, 7, 200, 1, 0, 0, 0, 0], [.actuate 200, .response .ok 200]) ∧
    seen (issue 0x0400FFFF 0 (row cfgB 1 1 2 3 4 5 6 7 8 true)) =
      some ([1, 1, 2, 3, 4, 5, 6, 7, 10, 1, 0, 0, 0, 0], [.actuate 10, .response .ok 10]) := by decide
theorem test_setout_inside : seen (issue 0x0400000B 0 (row cfgB 1 0 2 3 4 5 6 7 11 false)) =
    some ([1, 0, 2, 3, 4, 5, 6, 7, 11, 0, 0, 0, 0, 0], [.actuate 11, .response .ok 11]) := by decide

/-- 95_test_vectors.md 2.7. -/
theorem test_rd :
    let s := withDbg (-255) (-16711425) (-140735340806145) 16711425 (row cfgA 1 255 300 3 65535 5 6 (-37) 200 true)
    answerKeeping s (issue 0x05070000 0 s) = some (.response .ok 0xFFFFFFFFFFFFFFDB) ∧
    answerKeeping s (issue 0x050A0000 0 s) = some (.response .ok 0xFFFFFFFFFFFFFF01) ∧
    answerKeeping s (issue 0x050C0000 0 s) = some (.response .ok 0xFFFF80008000FFFF) ∧
    answerKeeping s (issue 0x05040000 0 s) = some (.response .ok 0xFFFF) ∧
    answerKeeping s (issue 0x05080000 0 s) = some (.response .ok 0xC8) ∧
    answerKeeping s (issue 0x05090000 0 s) = some (.response .ok 1) := by decide
theorem test_rd_rejected :
    answerKeeping (row cfgA 1 0 0 0 0 0 0 0 0 false) (issue 0x050E0000 0 (row cfgA 1 0 0 0 0 0 0 0 0 false)) = some (.response .errReg 0) ∧
    answerKeeping (row cfgA' 1 0 0 0 0 0 0 0 0 false) (issue 0x050A0000 0 (row cfgA' 1 0 0 0 0 0 0 0 0 false)) = some (.response .errReg 0) := by decide

/-- 95_test_vectors.md 2.8. -/
theorem test_wr :
    seen (issue 0x06010001 0 (row cfgA 0 0 0 0 0 80 79 500 9 true)) =
      some ([0, 1, 0, 0, 0, 80, 79, 500, 9, 1, 0, 0, 0, 0], [.response .ok 0]) ∧
    seen (issue 0x060000FF 0 (row cfgA 0 0 0 0 0 0 0 0 0 false)) =
      some ([255, 0, 0, 0, 0, 0, 0, 0, 0, 0, 0, 0, 0, 0], [.response .ok 0]) ∧
    seen (issue 0x06048000 0 (row cfgA 0 0 0 0 0 0 0 0 0 false)) =
      some ([0, 0, 0, 0, 32768, 0, 0, 0, 0, 0, 0, 0, 0, 0], [.response .ok 0]) := by decide
/-- 95_test_vectors.md 2.8 and 2.9. -/
theorem test_wr_rejected :
    let s := row cfgA 100 0 0 0 0 0 0 0 9 true
    answerKeeping s (issue 0x06201234 0 s) = some (.response .errReg 0) ∧
    answerKeeping s (issue 0x06050100 0 s) = some (.response .errRo 0) ∧
    answerKeeping s (issue 0x060A0000 0 s) = some (.response .errRo 0) ∧
    answerKeeping s (issue 0x060101FF 0 s) = some (.response .errRange 0) := by decide

/-! ## The tick, hard reset, and a placed word -/

/-- 95_test_vectors.md S8 and 2.10: a tick that coincides with the clear is kept. -/
theorem test_tick_at_the_clear :
    seen (step (coming [{ rst := false, tick := true, cmd := some 0x03000000, pvIn := 90 }] (row cfgA 100 1 2 1 1 90 90 0 0 true))) =
      some ([100, 1, 2, 1, 1, 90, 90, 10, 3, 1, 10, 20, 10, 0], [.pvReq, .actuate 3, .response .ok 0]) := by decide
/-- 95_test_vectors.md 2.10: hard reset wins over a coinciding tick (and command). -/
theorem test_hard_reset_wins :
    seen (step (coming [{ rst := true, tick := true, cmd := some 0x04000009, pvIn := 90 }] (row cfgA 100 1 2 1 1 90 90 0 9 true))) =
      some ([0, 0, 0, 0, 0, 0, 0, 0, 0, 0, 0, 0, 0, 0], []) := by decide
/-- The first step after reset with a word placed runs that word; by hand from 43_register_access.md R168. -/
theorem test_withFetchWord : seen (step (State.reset.withFetchWord 32 0x06000064)) =
    some ([100, 0, 0, 0, 0, 0, 0, 0, 0, 0, 0, 0, 0, 0], [.response .ok 0]) := by decide

/-! ## Witnesses: for each statement with hypotheses, concrete data that meets all of them, at the boundaries of each clause -/

/-- A state with a value in every register, the flag set, in AUTO. -/
def busy (c : Config) : State := withDbg 1 2 3 4 (row c 100 1 2 1 1 90 77 5 42 true)

/-- The statements about one command word to come: IllegalOpcodeRejected, ReservedFieldRejected, CheckOrder,
RejectionHasNoEffect, OneResponsePerCommand. -/
theorem witness_word_to_come (w : Word) (v : Byte) (rest : List Instant) :
    (coming (commandInstant w v :: rest) (busy cfgA)).upcoming = commandInstant w v := rfl
theorem witness_DecodeEncodeAgree : decode 0x0604FFFF = .ok (.wr 0x04 0xFFFF) ∧ 0x0604FFFF = encode (.wr 0x04 0xFFFF) := by decide
theorem witness_DecodingIsTotal :
    decode 0x00FFFFFF = .error .illegalOpcode ∧ decode 0x07000000 = .error .illegalOpcode ∧
    decode 0x0100FFFF = .ok (.setmode 0xFFFF) ∧ decode 0x01010000 = .error .reservedField ∧
    (opcodeTable.filter (fun r => r.selects 0x06FFFFFF)).map OpcodeRow.name = ["WR"] := by decide
theorem witness_IllegalOpcodeRejected :
    answerKeeping (busy cfgA) (issue 0x00000000 7 (busy cfgA)) = some (.response .errOpcode 0) ∧
    answerKeeping (busy cfgA) (issue 0x07000000 7 (busy cfgA)) = some (.response .errOpcode 0) ∧
    answerKeeping (busy cfgA) (issue 0xFFFFFFFF 7 (busy cfgA)) = some (.response .errOpcode 0) ∧
    answerKeeping (busy cfgA) (issue 0x06FFFFFF 7 (busy cfgA)) = some (.response .errReg 0) := by decide
theorem witness_ReservedFieldRejected :
    answerKeeping (busy cfgA) (issue 0x01010001 7 (busy cfgA)) = some (.response .errField 0) ∧
    answerKeeping (busy cfgA) (issue 0x03FF0000 7 (busy cfgA)) = some (.response .errField 0) ∧
    answerKeeping (busy cfgA) (issue 0x0508FFFF 7 (busy cfgA)) = some (.response .errField 0) := by decide
theorem witness_UnimplementedRegisterRejected :
    answerKeeping (busy cfgA) (exec (.rd 0x0E) (busy cfgA)) = some (.response .errReg 0) ∧
    answerKeeping (busy cfgA) (exec (.wr 0xFF 1) (busy cfgA)) = some (.response .errReg 0) ∧
    answerKeeping (busy cfgA') (exec (.rd 0x0A) (busy cfgA')) = some (.response .errReg 0) ∧
    answerKeeping (busy cfgA') (exec (.wr 0x0D 1) (busy cfgA')) = some (.response .errReg 0) ∧
    answerKeeping (busy cfgA') (exec (.rd 0x09) (busy cfgA')) = some (.response .ok 1) ∧
    answerKeeping (busy cfgA) (exec (.rd 0x0D) (busy cfgA)) = some (.response .ok 4) := by decide
theorem witness_ReadOnlyRegisterRejected :
    answerKeeping (busy cfgA') (exec (.wr 0x05 0xFFFF) (busy cfgA')) = some (.response .errRo 0) ∧
    answerKeeping (busy cfgA') (exec (.wr 0x09 1) (busy cfgA')) = some (.response .errRo 0) ∧
    answerKeeping (busy cfgA) (exec (.wr 0x0A 1) (busy cfgA)) = some (.response .errRo 0) ∧
    answerKeeping (busy cfgA) (exec (.wr 0x0D 1) (busy cfgA)) = some (.response .errRo 0) := by decide
theorem witness_OutOfRangeOperandRejected :
    answerKeeping (busy cfgA) (exec (.setmode 2) (busy cfgA)) = some (.response .errRange 0) ∧
    answerKeeping (busy cfgA) (exec (.setmode 0xFFFF) (busy cfgA)) = some (.response .errRange 0) ∧
    answerKeeping (busy cfgA) (exec (.wr 0x00 0x0100) (busy cfgA)) = some (.response .errRange 0) ∧
    answerKeeping (busy cfgA) (exec (.wr 0x01 0xFFFF) (busy cfgA)) = some (.response .errRange 0) := by decide
/-- The five examples of 60_exceptions.md R188, and an accepted word. -/
theorem witness_CheckOrder :
    answerKeeping (busy cfgA) (issue 0x0A01FFFF 7 (busy cfgA)) = some (.response .errOpcode 0) ∧
    answerKeeping (busy cfgA) (issue 0x06201234 7 (busy cfgA)) = some (.response .errReg 0) ∧
    answerKeeping (busy cfgA) (issue 0x06050100 7 (busy cfgA)) = some (.response .errRo 0) ∧
    answerKeeping (busy cfgA) (issue 0x01010005 7 (busy cfgA)) = some (.response .errField 0) ∧
    answerKeeping (busy cfgA) (issue 0x05300001 7 (busy cfgA)) = some (.response .errField 0) ∧
    answerKeeping (busy cfgA) (issue 0x050D0000 7 (busy cfgA)) = some (.response .ok 4) := by decide
theorem witness_WellFormedNeverRejected :
    WellFormed true (.wr 0x01 0x00FF) = true ∧
    seen (exec (.wr 0x01 0x00FF) (busy cfgA)) =
      some ([100, 255, 2, 1, 1, 90, 77, 5, 42, 1, 1, 2, 3, 4], [.response .ok 0]) ∧
    WellFormed false (.rd 0x0D) = false ∧
    answerKeeping (busy cfgA') (exec (.rd 0x0D) (busy cfgA')) = some (.response .errReg 0) := by decide
theorem witness_StepRunsDecodedCommand :
    let p : Instant := { rst := false, tick := true, cmd := some 0x04000009, pvIn := 3 }
    (coming [p] (busy cfgA)).inbox = [p] ∧ (busy cfgA).inbox = [] ∧ (coming [p] (busy cfgA)).upcoming.rst = false ∧
    (coming [p] (busy cfgA)).upcoming.cmd = some 0x04000009 ∧ decode 0x04000009 = .ok (.setout 9) ∧
    seen (step (coming [p] { busy cfgA with srf := false })) =
      some ([100, 1, 2, 1, 1, 90, 77, 5, 9, 1, 1, 2, 3, 4], [.actuate 9, .response .ok 9]) := by decide
theorem witness_StepWithoutInputHolds :
    let s := coming [{ rst := false, tick := false, cmd := none, pvIn := 3 }] (busy cfgA)
    s.upcoming.rst = false ∧ s.upcoming.tick = false ∧ s.upcoming.cmd = none ∧
    seen (step s) = some ([100, 1, 2, 1, 1, 90, 77, 5, 42, 1, 1, 2, 3, 4], []) := by decide
theorem witness_HardResetZeroesEverything :
    let p : Instant := { rst := true, tick := true, cmd := some 0x03000000, pvIn := 3 }
    (coming [p] (busy cfgA)).upcoming.rst = true := by decide
theorem witness_TicksAreNotCounted :
    (∀ k ≤ 2, (coming ([5, 6, 7].map tickInstant) (row cfgA 1 0 0 0 0 0 0 0 0 false)).future k =
      tickInstant (BitVec.ofNat 8 (5 + k))) ∧
    seen (Host.Core.run core 3 (coming ([5, 6, 7].map tickInstant) (row cfgA 1 0 0 0 0 0 0 0 0 false))) =
      some ([1, 0, 0, 0, 0, 0, 0, 0, 0, 1, 0, 0, 0, 0], []) := by decide
/-- The flag rises at a tick, and falls at a CYCLE in AUTO and at hard reset. -/
theorem witness_FlagWriters :
    (seen (step (coming [tickInstant 3] (row cfgA 1 0 0 0 0 0 0 0 0 false)))).map (fun v => v.1[9]?) = some (some 1) ∧
    (seen (issue 0x03000000 3 (busy cfgA))).map (fun v => v.1[9]?) = some (some 0) ∧
    (seen (step (coming [rstInstant 3] (busy cfgA)))).map (fun v => v.1[9]?) = some (some 0) := by decide
theorem witness_TickAtTheClearIsKept :
    let p : Instant := { rst := false, tick := true, cmd := some 0x03000000, pvIn := 3 }
    (busy cfgA).srf = true ∧ (busy cfgA).mode = 0x01 ∧ (coming [p] (busy cfgA)).upcoming = p := by decide
theorem witness_TickCommutesWithCommands :
    (Instr.rd 0x09 ≠ .cycle) ∧ (Instr.setout 9 ≠ .cycle) ∧ (Instr.setout 9 ≠ .rd 0x09) ∧
    answerKeeping (row cfgA 1 0 0 0 0 0 0 0 0 false) (exec (.rd 0x09) (row cfgA 1 0 0 0 0 0 0 0 0 false)) = some (.response .ok 0) ∧
    answerKeeping (busy cfgA) (exec (.rd 0x09) (busy cfgA)) = some (.response .ok 1) := by decide
theorem witness_ResetClearsHistory :
    (0x02000001 : Word).toNat / 2 ^ 24 = 0x02 ∧ (0x02000001 : Word) ≠ 0x02000000 ∧
    seen (exec .reset (busy cfgA)) = some ([100, 1, 2, 1, 1, 0, 0, 0, 42, 1, 0, 0, 0, 0], [.response .ok 0]) ∧
    seen (exec .reset (busy cfgA')) = some ([100, 1, 2, 1, 1, 0, 0, 0, 42, 1, 1, 2, 3, 4], [.response .ok 0]) := by decide
theorem witness_SetmodeResetsThenSetsMode :
    (0x01010005 : Word).toNat / 2 ^ 24 = 0x01 ∧ (0x01010005 : Word).toNat / 2 ^ 16 % 2 ^ 8 ≠ 0 ∧
    seen (exec (.setmode 1) (busy cfgA)) = some ([100, 1, 2, 1, 1, 0, 0, 0, 42, 1, 0, 0, 0, 0], [.response .ok 0]) ∧
    answerKeeping (busy cfgA) (exec (.setmode 2) (busy cfgA)) = some (.response .errRange 0) := by decide
theorem witness_ModeChangesOnlyBy :
    (seen (issue 0x01000000 3 (busy cfgA))).map (fun v => v.1[1]?) = some (some 0) ∧
    (seen (issue 0x060100FF 3 (busy cfgA))).map (fun v => v.1[1]?) = some (some 255) ∧
    (seen (step (coming [rstInstant 3] (busy cfgA)))).map (fun v => v.1[1]?) = some (some 0) := by decide
/-- 95_test_vectors.md P3 line 14: the derivative kick. -/
theorem witness_FirstCycleAfterSetmodeAuto :
    (row cfgB 120 0 256 16 128 82 80 0 150 true).srf = true ∧
    seen (issue 0x03000000 84 (row cfgB 120 1 256 16 128 0 0 0 150 true)) =
      some ([120, 1, 256, 16, 128, 84, 0, 36, 160, 0, 36, 9216, 576, 10752], [.pvReq, .actuate 160, .response .ok 0]) := by decide
theorem witness_CycleGuard :
    (0x03FF0000 : Word).toNat / 2 ^ 24 = 0x03 ∧ (0x03FF0000 : Word) ≠ 0x03000000 ∧
    ((busy cfgA).srf = true ∧ (busy cfgA).mode = 0x01) ∧
    (row cfgA 1 0xFF 0 0 0 0 0 0 0 true).mode ≠ 0x01 ∧ (row cfgA 1 1 0 0 0 0 0 0 0 false).srf = false := by decide
/-- With and without HAS_DEBUG; both rows by hand from 95_test_vectors.md 2.4. -/
theorem witness_CycleRunsControlLaw :
    (busy cfgA').srf = true ∧ (busy cfgA').mode = 0x01 ∧ (busy cfgA').cfg.hasDebug = false ∧ (busy cfgA).cfg.hasDebug = true ∧
    seen (issue 0x03000000 95 (busy cfgA')) =
      some ([100, 1, 2, 1, 1, 95, 90, 10, 2, 0, 1, 2, 3, 4], [.pvReq, .actuate 2, .response .ok 0]) := by decide
/-- Two states that differ in OUTPUT, LAST_PV, the captures and the record, and agree on what the law reads. -/
theorem witness_CycleIgnoresOtherState :
    let s := busy cfgA
    let t := { row cfgA 100 1 2 1 1 90 13 5 7 true with log := [.actuate 7] }
    s ≠ t ∧ s.cfg = t.cfg ∧ s.pvIn = t.pvIn ∧ s.setpoint = t.setpoint ∧ s.mode = t.mode ∧ s.srf = t.srf ∧
    s.gainP = t.gainP ∧ s.gainI = t.gainI ∧ s.gainD = t.gainD ∧ s.pv = t.pv ∧ s.errSum = t.errSum ∧
    s.srf = true ∧ s.mode = 0x01 ∧ s.cfg.hasDebug = true := by decide
/-- The accumulator on its largest bound, and on its smallest (95_test_vectors.md 2.5 B1 and B2). -/
theorem witness_ArithmeticNeverOverflows :
    ErrSumBounded (row cfgB 255 1 65535 65535 65535 0 0 2147483647 0 true) ∧
    lawSum cfgB (row cfgB 255 1 65535 65535 65535 0 0 2147483647 0 true).toBlock = 140735357517570 ∧
    lawU cfgB (row cfgB 255 1 65535 65535 65535 0 0 2147483647 0 true).toBlock = 1099494980606 ∧
    ErrSumBounded (row cfgB 0 1 65535 65535 65535 255 255 (-2147483647) 0 true) ∧
    lawU cfgB (row cfgB 0 1 65535 65535 65535 255 255 (-2147483647) 0 true).toBlock = -1099494980606 := by
  refine ⟨⟨?_, ?_⟩, ?_, ?_, ⟨?_, ?_⟩, ?_⟩ <;> decide
theorem witness_SmallSumCommandsMinimum :
    (9 : Int) < cfgA.scalingFactor ∧ (saturate cfgB (tdiv 127 128)).toNat = 10 ∧ tdiv (-29) 10 = -2 ∧ tdiv 29 10 = 2 := by decide
/-- Windup to each bound (95_test_vectors.md P2 lines 7 and 17), and the state each begins with. -/
theorem witness_AntiWindup :
    let up := row cfgA 255 1 0 2 0 0 0 765 153 true
    let down := row cfgA 0 1 0 2 0 255 255 (-785) 0 true
    let due (v : Byte) : Instant := { rst := false, tick := true, cmd := some (encode .cycle), pvIn := v }
    (ErrSumBounded up ∧ up.srf = true ∧ up.mode = 0x01 ∧ (∀ v ∈ [(0 : Byte)], v.toNat < up.setpoint.toNat)) ∧
    (ErrSumBounded down ∧ down.srf = true ∧ down.mode = 0x01 ∧ (∀ v ∈ [(255 : Byte)], down.setpoint.toNat < v.toNat)) ∧
    ((coming [due 0] up).future 0 = due 0 ∧ (coming [due 255] down).future 0 = due 255) ∧
    (seen (step (coming [due 0] up))).map (fun v => v.1[7]?) = some (some 1000) ∧
    (seen (step (coming [due 255] down))).map (fun v => v.1[7]?) = some (some (-1000)) := by
  refine ⟨⟨⟨?_, ?_⟩, ?_, ?_, ?_⟩, ⟨⟨?_, ?_⟩, ?_, ?_, ?_⟩, ⟨?_, ?_⟩, ?_, ?_⟩ <;> decide
theorem witness_EndToEndScenario :
    let s := row cfgA 100 1 2 1 1 90 90 0 0 true
    s.cfg.scalingFactor = 10 ∧ 10 ≤ s.cfg.maxErrorSum ∧ s.cfg.minOutput ≤ 3 ∧ 3 ≤ s.cfg.maxOutput ∧ s.setpoint = 100 ∧
    s.pv = 90 ∧ s.lastPv = 90 ∧ s.errSum = 0 ∧ s.gainP = 2 ∧ s.gainI = 1 ∧ s.gainD = 1 := by decide
theorem witness_DerivativeSign :
    let b := (row cfgA 10 1 0 0 5 10 20 0 77 true).toBlock
    let b' := (row cfgA 10 1 0 0 5 20 10 0 77 true).toBlock
    b.gainD ≠ 0 ∧ b.gainD = 5 ∧ b.pv = 10 ∧ b.lastPv = 20 ∧ b'.gainD = 5 ∧ b'.pv = 20 ∧ b'.lastPv = 10 ∧
    dTerm b = -50 ∧ dTerm b' = 50 := by decide
theorem witness_SaturationNotes :
    ((cfgB.minOutput : Int) ≤ 10 ∧ (10 : Int) ≤ cfgB.maxOutput ∧ (saturate cfgB 10).toNat = 10) ∧
    ((cfgB.minOutput : Int) ≤ 200 ∧ (200 : Int) ≤ cfgB.maxOutput ∧ (saturate cfgB 200).toNat = 200) ∧
    (cfgC.minOutput = cfgC.maxOutput ∧ (saturate cfgC (-1)).toNat = 128) ∧
    ((saturate cfgB 1099494980606).toNat = 200 ∧ (saturate cfgB (-1099494980606)).toNat = 10) ∧ ((5 : Int) ≤ 201) := by decide
theorem witness_SetoutCommand :
    (0x04010005 : Word).toNat / 2 ^ 24 = 0x04 ∧ (0x04010005 : Word).toNat / 2 ^ 16 % 2 ^ 8 ≠ 0 ∧
    seen (exec (.setout 0x8000) (busy cfgB)) =
      some ([100, 1, 2, 1, 1, 90, 77, 5, 10, 1, 1, 2, 3, 4], [.actuate 10, .response .ok 10]) ∧
    seen (exec (.setout 0x7FFF) (busy cfgB)) =
      some ([100, 1, 2, 1, 1, 90, 77, 5, 200, 1, 1, 2, 3, 4], [.actuate 200, .response .ok 200]) := by decide
theorem witness_GetoutReadsOutput :
    (0x05080001 : Word).toNat / 2 ^ 16 = 0x0508 ∧ (0x05080001 : Word).toNat % 2 ^ 16 ≠ 0 ∧
    answerKeeping (busy cfgA) (exec getout (busy cfgA)) = some (.response .ok 42) := by decide
/-- The first and the last index of each clause: 0x00, 0x09, 0x0A and 0x0D with the capture registers; 0x0A without; 0x0E. -/
theorem witness_ReadReturnsRegister :
    (0x05300001 : Word).toNat / 2 ^ 24 = 0x05 ∧ (0x05300001 : Word).toNat % 2 ^ 16 ≠ 0 ∧
    answerKeeping (busy cfgA) (exec (.rd 0x00) (busy cfgA)) = some (.response .ok 100) ∧
    answerKeeping (busy cfgA') (exec (.rd 0x09) (busy cfgA')) = some (.response .ok 1) ∧
    answerKeeping (busy cfgA) (exec (.rd 0x0A) (busy cfgA)) = some (.response .ok 1) ∧
    answerKeeping (busy cfgA) (exec (.rd 0x0D) (busy cfgA)) = some (.response .ok 4) ∧
    answerKeeping (busy cfgA') (exec (.rd 0x0A) (busy cfgA')) = some (.response .errReg 0) ∧
    answerKeeping (busy cfgA) (exec (.rd 0x0E) (busy cfgA)) = some (.response .errReg 0) := by decide
/-- The boundary values of each clause: 255 and 256 for an 8-bit register, 0x04 and 0x05, 0x0D with the capture registers. -/
theorem witness_WriteStoresRegister :
    seen (exec (.wr 0x00 255) (busy cfgA)) = some ([255, 1, 2, 1, 1, 90, 77, 5, 42, 1, 1, 2, 3, 4], [.response .ok 0]) ∧
    answerKeeping (busy cfgA) (exec (.wr 0x01 256) (busy cfgA)) = some (.response .errRange 0) ∧
    seen (exec (.wr 0x04 0xFFFF) (busy cfgA)) = some ([100, 1, 2, 1, 65535, 90, 77, 5, 42, 1, 1, 2, 3, 4], [.response .ok 0]) ∧
    answerKeeping (busy cfgA) (exec (.wr 0x05 256) (busy cfgA)) = some (.response .errRo 0) ∧
    answerKeeping (busy cfgA) (exec (.wr 0x0D 0) (busy cfgA)) = some (.response .errRo 0) ∧
    answerKeeping (busy cfgA') (exec (.wr 0x0D 0) (busy cfgA')) = some (.response .errReg 0) := by decide
theorem witness_WriteThenReadReturnsValue :
    WellFormed cfgA'.hasDebug (.wr 0x01 0x00FF) = true ∧ WellFormed cfgA'.hasDebug (.wr 0x04 0xFFFF) = true := by decide
theorem witness_SaveLoadRoundTrip :
    loadCommands (persistedOf (busy cfgA).toBlock) = [.wr 0x00 100, .wr 0x01 1, .wr 0x02 2, .wr 0x03 1, .wr 0x04 1] ∧
    savedFrom 0x3C 1 0x12C 7 0 = { setpoint := 60, mode := 1, gainP := 300, gainI := 7, gainD := 0 } := by decide
/-- A state that no reset leaves and that meets the invariant: an accumulator on its bound, one value sent and stored, the
captures of the cycle that sent it. -/
theorem witness_StepKeepsInvariant :
    Inv { withDbg 255 0 2000 0 (row cfgA 255 1 0 2 0 0 0 1000 200 true) with log := [.pvReq, .actuate 200, .response .ok 0] } := by
  refine ⟨⟨by decide, by decide⟩, ?_, ?_, ?_, ?_⟩
  · unfold OutputIsLastActuated; decide
  · unfold ActuationsInRange; decide
  · unfold NoStrayDebug; decide
  · unfold DebugInRange; decide
/-- A run from reset that has sent a value, which both clauses of ReachableOutputIsActuated then speak of. -/
theorem witness_ReachableOutputIsActuated :
    seen (Host.Core.run core 1 (State.resetWith cfgB 0 [commandInstant 0x04000000 0])) =
      some ([0, 0, 0, 0, 0, 0, 0, 0, 10, 0, 0, 0, 0, 0], [.actuate 10, .response .ok 10]) := by decide
/-- The record gains each rejection and is kept through a hard reset (60_exceptions.md R197). -/
theorem witness_RejectionsAreRecorded :
    faultsAfter (issue 0x0A01FFFF 7 (busy cfgA)) = some [.errOpcode] ∧
    faultsAfter (issue 0x06080010 7 { busy cfgA with faults := [.errOpcode] }) = some [.errOpcode, .errRo] ∧
    faultsAfter (step (coming [rstInstant 3] { busy cfgA with faults := [.errOpcode, .errRo] })) = some [.errOpcode, .errRo] ∧
    faultsAfter (issue 0x05080000 7 (busy cfgA)) = some [] := by decide
/-- A program of two well-formed commands with a tick between them. -/
theorem witness_WellFormedProgramKeepsNoRejection :
    let s := coming [commandInstant 0x06010001 3, tickInstant 3, commandInstant 0x03000000 3] (busy cfgA')
    (s.future 0).cmd = some (encode (.wr 0x01 1)) ∧ (s.future 1).cmd = none ∧ (s.future 2).cmd = some (encode .cycle) ∧
    WellFormed cfgA'.hasDebug (.wr 0x01 1) = true ∧ WellFormed cfgA'.hasDebug .cycle = true ∧
    faultsAfter (Host.Core.run core 3 s) = some [] := by decide
/-- Ticks without end: the input of the first part, with what its hypotheses ask of every instant. -/
theorem witness_EveryInputSequenceIsARun :
    ∀ k : Nat, (fun _ : Nat => tickInstant 3) k = tickInstant 3 ∧ (tickInstant 3).rst = false ∧ (tickInstant 3).tick = true :=
  fun _ => ⟨rfl, rfl, rfl⟩

end Sys2Proof.Tests
end

section
/-! SUPPORT. What one command can do to the state, and what CYCLE's word is: the facts that the proofs about the state rest
on. -/

namespace Sys2Proof.Machine

/-- The status that a decoded command's operand checks give (60_exceptions.md R188 steps 3 to 5). -/
def operandStatus (hasDebug : Bool) : Instr → Status
  | .setmode imm => setmodeStatus imm
  | .reset | .cycle | .setout _ => .ok
  | .rd ra => rdStatus hasDebug ra
  | .wr ra imm => wrStatus hasDebug ra imm

/-- What a command can leave, case by case, with the checks that led there. -/
inductive CommandEffect (s : State) : Instr → State → Prop
  | rejected (i : Instr) (hst : operandStatus s.cfg.hasDebug i ≠ .ok) :
      CommandEffect s i (reject (operandStatus s.cfg.hasDebug i) s)
  | setmode (imm : Half) (hst : setmodeStatus imm = .ok) : CommandEffect s (.setmode imm) (Machine.setmode imm s)
  | reset : CommandEffect s .reset (respond .ok 0 (doReset s))
  | cycleWithLaw (hdue : s.srf = true ∧ s.mode = 0x01) :
      CommandEffect s .cycle (respond .ok 0 (controlLaw (clearSrf (shiftMeasurement s))))
  | cycleWithoutLaw (hdue : ¬ (s.srf = true ∧ s.mode = 0x01)) : CommandEffect s .cycle (respond .ok 0 (shiftMeasurement s))
  | setout (imm : Half) :
      CommandEffect s (.setout imm) (respond .ok ((saturate s.cfg (sext16 imm)).setWidth 64) (setOutput (sext16 imm) s))
  | rd (ra : Byte) (hst : rdStatus s.cfg.hasDebug ra = .ok) : CommandEffect s (.rd ra) (respond .ok (readIndex s ra) s)
  | wr (r : Reg) (imm : Half) (hw : regWritable r = true) (hv : wrInRange r imm = true) :
      CommandEffect s (.wr (regIndex r) imm) (respond .ok 0 (writeReg r imm s))

@[simp] theorem setmode_toBlock (imm : Half) (s : State) :
    (setmode imm s).toBlock = { (doReset s).toBlock with mode := imm.extractLsb' 0 8 } := rfl
@[simp] theorem setmode_cfg (imm : Half) (s : State) : (setmode imm s).cfg = s.cfg := by simp [setmode]
@[simp] theorem setmode_faults (imm : Half) (s : State) : (setmode imm s).faults = s.faults := by simp [setmode]
@[simp] theorem setmode_log (imm : Half) (s : State) : (setmode imm s).log = s.log ++ [.response .ok 0] := by simp [setmode]

/-- An accepted WR names a writable register and a value in its range (60_exceptions.md R188 steps 3 to 5). -/
theorem wrStatus_eq_ok {hd : Bool} {ra : Byte} {imm : Half} (h : wrStatus hd ra imm = .ok) :
    ∃ r, ra = regIndex r ∧ regWritable r = true ∧ wrInRange r imm = true := by
  unfold wrStatus at h
  split at h
  · cases h
  next r hr =>
    refine ⟨r, ((implementedReg_eq_some _ _ _).1 hr).1, ?_⟩
    cases hw : regWritable r <;> cases hv : wrInRange r imm <;> simp_all

theorem execCycle_effect (s : State) : CommandEffect s .cycle (respond .ok 0 (lawIfDue (shiftMeasurement s))) := by
  by_cases hdue : s.srf = true ∧ s.mode = 0x01
  · rw [lawIfDue_of_due (shiftMeasurement s) ((lawDue_iff s.toBlock).2 hdue)]
    exact .cycleWithLaw hdue
  · rw [← lawDue_iff, Bool.not_eq_true] at hdue
    rw [lawIfDue_of_not_due (shiftMeasurement s) hdue]
    exact .cycleWithoutLaw (by rw [← lawDue_iff, hdue]; exact Bool.false_ne_true)

/-- Everything a command can do. -/
theorem exec_effect {i : Instr} {s t : State} (h : exec i s = .next t) : CommandEffect s i t := by
  cases i with
  | setmode imm =>
    cases h
    obtain ⟨hst, hrun⟩ | ⟨hst, hrun⟩ := runIfOk_cases (setmodeStatus imm) (setmode imm) s <;> rw [hrun]
    · exact .setmode imm hst
    · exact .rejected _ hst
  | reset => cases h; exact .reset
  | cycle => cases h; exact execCycle_effect s
  | setout imm => cases h; exact .setout imm
  | rd ra =>
    cases h
    obtain ⟨hst, hrun⟩ | ⟨hst, hrun⟩ :=
      runIfOk_cases (rdStatus s.cfg.hasDebug ra) (fun t => respond .ok (readIndex t ra) t) s <;> rw [hrun]
    · exact .rd ra hst
    · exact .rejected _ hst
  | wr ra imm =>
    by_cases hst : wrStatus s.cfg.hasDebug ra imm = .ok
    · obtain ⟨r, rfl, hw, hv⟩ := wrStatus_eq_ok hst
      rw [exec_wr_regIndex s r imm hw hv] at h
      cases h
      exact .wr r imm hw hv
    · simp only [exec, execWr, runIfOk_reject _ _ _ hst] at h
      cases h
      exact .rejected _ hst

/-- A decoded word is its instruction's word: decoding drops no bit (30_encoding.md R71, R74, R77). -/
theorem encode_of_decode {w : Word} {i : Instr} (h : decode w = .ok i) : encode i = w := by
  rw [← packWord_fields w]
  unfold decode at h
  split at h
  case h_7 => cases h
  case h_6 hop => cases h; rw [byte_eq _ _ hop]; rfl
  all_goals
    next hop =>
      split at h
      next hzero => cases h; simp only [encode, hzero, byte_eq _ _ hop]; rfl
      next => cases h

/-- A word is CYCLE's exactly when it is 0x03000000 (30_encoding.md R74, R77). -/
theorem decode_eq_cycle_iff (w : Word) : decode w = .ok .cycle ↔ w = 0x03000000 := by
  constructor
  · exact fun h => (encode_of_decode h).symm
  · rintro rfl
    decide

/-- WR of an implemented register that no WR may write is rejected (43_register_access.md R168). -/
theorem exec_wr_of_not_writable (s : State) (r : Reg) (imm : Half) (hi : isDebugReg r = true → s.cfg.hasDebug = true)
    (hw : regWritable r = false) : exec (.wr (regIndex r) imm) s = .next (reject .errRo s) := by
  have hr : implementedReg s.cfg.hasDebug (regIndex r) = some r := (implementedReg_eq_some _ _ _).2 ⟨rfl, hi⟩
  have hst : wrStatus s.cfg.hasDebug (regIndex r) imm = .errRo := by simp [wrStatus, hr, hw]
  simp only [exec, execWr, hst, runIfOk_reject _ _ _ (show Status.errRo ≠ .ok by decide)]

/-- A property kept by the taking of an instant, by hard reset, by every command, by a rejection and by a tick is kept by
every step. -/
theorem step_keeps (P : State → Prop) (hreceived : ∀ s, P s → P s.received) (hreset : ∀ s, P s → P (hardReset s))
    (hexec : ∀ i s t, exec i s = .next t → P s → P t) (hreject : ∀ st s, P s → P (reject st s))
    (htick : ∀ s, P s → P (tickEvent s)) (s : State) (h : P s) : ∃ t, step s = .next t ∧ P t := by
  obtain ⟨t, ht, -, -, -, ⟨-, rfl⟩ | ⟨-, u, hu, rfl⟩⟩ := step_cases s
  · exact ⟨_, ht, hreset _ (hreceived s h)⟩
  · have hPu : P u := by
      cases hcmd : s.upcoming.cmd with
      | none => rw [hcmd] at hu; cases hu; exact hreceived s h
      | some w =>
        simp only [hcmd, commandIfAny, command] at hu
        split at hu
        next i _ => exact hexec i _ _ hu (hreceived s h)
        next e _ => cases hu; exact hreject _ _ (hreceived s h)
    refine ⟨_, ht, ?_⟩
    split
    · exact htick u hPu
    · exact hPu

end Sys2Proof.Machine
end

section
/-! SUPPORT. The invariant of the block: it holds at hard reset, and every step keeps it (10_state.md R32, R33, R36). -/

namespace Sys2Proof.Machine

/-- The invariant reads the parameters, ERR_SUM, OUTPUT, the trace and the captures, and nothing else. -/
theorem Inv.congr {s t : State} (h : Inv s) (hcfg : t.cfg = s.cfg) (herr : t.errSum = s.errSum) (hout : t.output = s.output)
    (htrace : actuateTrace t.log = actuateTrace s.log)
    (hdbg : t.dbgE = s.dbgE ∧ t.dbgP = s.dbgP ∧ t.dbgI = s.dbgI ∧ t.dbgD = s.dbgD) : Inv t := by
  obtain ⟨hE, hP, hI, hD⟩ := hdbg
  obtain ⟨h1, h2, h3, h4, h5⟩ := h
  constructor
  · simpa only [ErrSumBounded, hcfg, herr] using h1
  · simpa only [OutputIsLastActuated, hout, htrace] using h2
  · simpa only [ActuationsInRange, hcfg, htrace] using h3
  · simpa only [NoStrayDebug, hcfg, hE, hP, hI, hD] using h4
  · simpa only [DebugInRange, hcfg, hE, hP, hI, hD] using h5

theorem Inv.respond {s : State} (h : Inv s) (st : Status) (d : Dword) : Inv (respond st d s) :=
  h.congr rfl rfl rfl (by simp) (by simp)

theorem Inv.reject {s : State} (h : Inv s) (st : Status) : Inv (reject st s) := h.congr rfl rfl rfl (by simp) (by simp)

theorem Inv.shiftMeasurement {s : State} (h : Inv s) : Inv (shiftMeasurement s) := h.congr rfl rfl rfl (by simp) (by simp)

theorem Inv.clearSrf {s : State} (h : Inv s) : Inv (clearSrf s) := h.congr rfl rfl rfl rfl (by simp)

theorem Inv.tickEvent {s : State} (h : Inv s) : Inv (tickEvent s) := h.congr rfl rfl rfl rfl (by simp)

theorem Inv.received {s : State} (h : Inv s) : Inv s.received := h.congr (by simp) (by simp) (by simp) (by simp) (by simp)

theorem Inv.writeReg {s : State} (h : Inv s) (r : Reg) (imm : Half) : Inv (writeReg r imm s) := by
  cases r <;> exact h.congr rfl rfl rfl rfl ⟨rfl, rfl, rfl, rfl⟩

/-- A block of zeros with an empty trace meets the invariant (10_state.md R37). -/
theorem inv_of_block_reset {s : State} (hblock : s.toBlock = Block.reset) (hlog : s.log = []) : Inv s := by
  constructor
  · simp [ErrSumBounded, hblock, Block.reset]
  · simp [OutputIsLastActuated, hblock, hlog, Block.reset]
  · simp [ActuationsInRange, hlog]
  · simp [NoStrayDebug, hblock, Block.reset]
  · simp [DebugInRange, hblock, Block.reset]

/-- The full reset puts zeros where the invariant asks for small values. -/
theorem Inv.doReset {s : State} (h : Inv s) : Inv (doReset s) := by
  constructor
  · simp [ErrSumBounded, doReset_eq]
  · simpa [OutputIsLastActuated, doReset_eq] using h.outputIsLastActuated
  · simpa [ActuationsInRange] using h.actuationsInRange
  · intro hd
    have hd' : s.cfg.hasDebug = false := by simpa using hd
    simpa [doReset_eq, hd'] using h.noStrayDebug hd'
  · cases hd : s.cfg.hasDebug
    · simpa [DebugInRange, doReset_eq, hd] using h.debugInRange
    · simp [DebugInRange, doReset_eq, hd]

theorem Inv.setmode {s : State} (h : Inv s) (imm : Half) : Inv (setmode imm s) :=
  h.doReset.congr rfl rfl rfl (by simp) ⟨rfl, rfl, rfl, rfl⟩

/-- The output stage sends only values in range (20_memory.md R57). -/
theorem ActuationsInRange.actuate {s t : State} (h : ActuationsInRange s) (u : Int) (hcfg : t.cfg = s.cfg)
    (hlog : t.log = s.log ++ [.actuate (saturate s.cfg u)]) : ActuationsInRange t := by
  intro v hv
  rw [hcfg]
  simp only [hlog, actuateTrace_append, actuateTrace_actuate, actuateTrace_nil, List.mem_append, List.mem_singleton] at hv
  obtain hv | rfl := hv
  · exact h v hv
  · exact saturate_mem s.cfg u

/-- `set_output` sends what it stores (42_output_stage.md R154). -/
theorem Inv.setOutput {s : State} (h : Inv s) (u : Int) : Inv (setOutput u s) where
  errSumBounded := h.errSumBounded
  outputIsLastActuated := by simp [OutputIsLastActuated]
  actuationsInRange := h.actuationsInRange.actuate u rfl rfl
  noStrayDebug := h.noStrayDebug
  debugInRange := h.debugInRange

/-- The law clamps what it accumulates, sends what it stores, and captures values in range (41_cycle_control_law.md R125,
R127, R132). -/
theorem Inv.controlLaw {s : State} (h : Inv s) : Inv (controlLaw s) where
  errSumBounded := by
    have hsum := newErrSum_store s.cfg s.toBlock
    simp only [ErrSumBounded, controlLaw_toBlock, controlLaw_cfg, hsum]
    exact accumulate_mem _ _ _
  outputIsLastActuated := by simp [OutputIsLastActuated, controlLaw_toBlock]
  actuationsInRange := h.actuationsInRange.actuate _ (controlLaw_cfg s) (controlLaw_log s)
  noStrayDebug hd := by
    have hd' : s.cfg.hasDebug = false := by simpa using hd
    simpa [controlLaw_toBlock, hd'] using h.noStrayDebug hd'
  debugInRange := by
    cases hd : s.cfg.hasDebug
    · simpa [DebugInRange, controlLaw_toBlock, hd] using h.debugInRange
    · obtain ⟨hE, hP, hI, hD⟩ := capture_exact s.cfg s.toBlock
      simp only [DebugInRange, controlLaw_toBlock, controlLaw_cfg, hd, if_true, hE, hP, hI, hD]
      exact ⟨lawError_mem _, pTerm_mem _, iTerm_mem _ _, dTerm_mem _⟩

/-- Every command keeps the invariant. -/
theorem exec_keeps_inv {i : Instr} {s t : State} (ht : exec i s = .next t) (h : Inv s) : Inv t := by
  cases exec_effect ht with
  | rejected => exact h.reject _
  | setmode imm hst => exact h.setmode imm
  | reset => exact h.doReset.respond _ _
  | cycleWithLaw hdue => exact h.shiftMeasurement.clearSrf.controlLaw.respond _ _
  | cycleWithoutLaw hdue => exact h.shiftMeasurement.respond _ _
  | setout imm => exact (h.setOutput _).respond _ _
  | rd ra hst => exact h.respond _ _
  | wr r imm hw hv => exact (h.writeReg r imm).respond _ _

theorem step_keeps_inv (s : State) (h : Inv s) : ∃ t, step s = .next t ∧ Inv t :=
  step_keeps Inv (fun _ h => h.received) (fun _ _ => inv_of_block_reset rfl rfl) (fun _ _ _ => exec_keeps_inv)
    (fun _ _ h => h.reject _) (fun _ h => h.tickEvent) s h

/-- Every state reached from hard reset meets the invariant, under the parameters the run began with. -/
theorem run_from_reset_inv (c : Config) (v : Byte) (inputs : List Instant) (k : Nat) :
    ∃ t : State, Host.Core.run core k (State.resetWith c v inputs) = .next t ∧ t.cfg = c ∧ Inv t := by
  refine run_keeps (fun t => t.cfg = c ∧ Inv t) ?_ k _ ⟨rfl, inv_of_block_reset rfl rfl⟩
  rintro s ⟨rfl, hinv⟩
  obtain ⟨t, ht, hcfg, -⟩ := step_cases s
  obtain ⟨t', ht', hinv'⟩ := step_keeps_inv s hinv
  rw [ht] at ht'
  cases ht'
  exact ⟨t, ht, hcfg, hinv'⟩

end Sys2Proof.Machine
end

section
/-! SUPPORT. The flag SRF and its STATUS view (10_state.md R30, R31, R38). -/

namespace Sys2Proof.Machine

/-- SRF after a command: CYCLE in AUTO leaves 0, anything else leaves it as it was (41_cycle_control_law.md R120). -/
theorem exec_srf {i : Instr} {s t : State} (h : exec i s = .next t) :
    t.srf = if i = .cycle ∧ s.mode = 0x01 then false else s.srf := by
  cases exec_effect h with
  | rejected _ hst =>
    have hi : i ≠ .cycle := fun h => hst (h ▸ rfl)
    simp [hi]
  | setmode imm hst => simp [doReset_eq]
  | reset => simp [doReset_eq]
  | cycleWithLaw hdue => simp [controlLaw_toBlock, hdue]
  | cycleWithoutLaw hdue => simpa using hdue
  | setout imm => simp
  | rd ra hst => simp
  | wr r imm hw hv => cases r <;> rfl

/-- SRF after the command of an instant, if there is one: the word of CYCLE alone can clear it. -/
theorem commandIfAny_srf {cmd : Option Word} {s t : State} (h : commandIfAny cmd s = .next t) :
    t.srf = if cmd = some 0x03000000 ∧ s.mode = 0x01 then false else s.srf := by
  cases cmd with
  | none => cases h; simp
  | some w =>
    simp only [commandIfAny, command] at h
    simp only [Option.some.injEq, ← decode_eq_cycle_iff]
    cases hw : decode w with
    | ok i =>
      rw [hw] at h
      simpa using exec_srf h
    | error e =>
      rw [hw] at h
      cases h
      simp

/-- SRF after a step: hard reset leaves 0 and a tick leaves 1, in this order of precedence (70_reset_and_hazards.md R210,
20_memory.md R61). -/
theorem step_srf (s : State) : ∃ t, step s = .next t ∧
    t.srf = if s.upcoming.rst then false else if s.upcoming.tick then true else
      if s.upcoming.cmd = some 0x03000000 ∧ s.mode = 0x01 then false else s.srf := by
  obtain ⟨t, ht, -, -, -, ⟨hrst, rfl⟩ | ⟨hrst, u, hu, rfl⟩⟩ := step_cases s <;> refine ⟨_, ht, ?_⟩
  · simp [hrst, Block.reset]
  · cases htick : s.upcoming.tick
    · simpa [hrst] using commandIfAny_srf hu
    · simp [hrst]

/-- RD of STATUS sees SRF in bit 0 and zeros above (10_state.md R31). -/
theorem readReg_status (b : Block) : readReg b .status = if b.srf then 1 else 0 := by
  cases hsrf : b.srf <;> simp [readReg, statusView, hsrf]

/-- A step at an instant with a tick alone sets SRF and takes the instant (60_exceptions.md R190). -/
theorem step_tick (s : State) (v : Byte) (h : s.upcoming = tickInstant v) : step s = .next (tickEvent s.received) := by
  simp [step, h, instant, tickInstant, commandIfAny, thenTick]

end Sys2Proof.Machine
end

section
/-! PROOFS. The statements about the state (10_state.md), settled. -/

namespace Sys2Proof.Settled

open Sys2Proof.Machine

/-- Settles O49: each event of a step keeps the invariant. -/
theorem stepKeepsInvariant : Obligations.StepKeepsInvariant := step_keeps_inv

/-- Settles O48: the reset state is a block of zeros with an empty record. -/
theorem invariantAtReset : Obligations.InvariantAtReset := inv_of_block_reset rfl rfl

/-- Settles O50, by the invariant of the reached states; the bound itself excludes -2^31. -/
theorem reachableErrSumBounded : Obligations.ReachableErrSumBounded := by
  intro c v inputs k
  obtain ⟨t, ht, rfl, hinv⟩ := run_from_reset_inv c v inputs k
  obtain ⟨hlo, hhi⟩ := hinv.errSumBounded
  have hmax := t.cfg.maxErrorSum_le
  exact ⟨t, ht, hlo, hhi, by omega⟩

/-- Settles O51, by the invariant of the reached states. -/
theorem reachableOutputIsActuated : Obligations.ReachableOutputIsActuated := by
  intro c v inputs k
  obtain ⟨t, ht, rfl, hinv⟩ := run_from_reset_inv c v inputs k
  have hout : t.output = (actuateTrace t.log).getLastD 0x00 := hinv.outputIsLastActuated
  refine ⟨t, ht, ?_, ?_⟩
  · intro hnone
    simpa [hnone] using hout
  · intro a ha
    have hlast : t.output = a := by simpa [List.getLastD_eq_getLast?, ha] using hout
    exact ⟨hlast, hinv.actuationsInRange a (List.mem_of_getLast? ha)⟩

/-- Settles O18, by induction on the number of ticks after the first. -/
theorem ticksAreNotCounted : Obligations.TicksAreNotCounted := by
  intro n
  induction n with
  | zero =>
    intro s v hticks
    have h0 : s.upcoming = tickInstant (v 0) := (future_zero s).symm.trans (hticks 0 le_rfl)
    rw [run_succ 0 _ _ (step_tick s _ h0), run_zero]
    congr 1
    apply State.ext_fields <;> simp [h0, tickInstant, received_drawn]
  | succ n ih =>
    intro s v hticks
    have h0 : s.upcoming = tickInstant (v 0) := (future_zero s).symm.trans (hticks 0 (Nat.zero_le _))
    have hrest : ∀ k ≤ n, (tickEvent s.received).future k = tickInstant (v (k + 1)) := by
      intro k hk
      rw [future_congr (tickEvent s.received) s.received rfl rfl, future_received]
      exact hticks (k + 1) (by omega)
    rw [run_succ (n + 1) _ _ (step_tick s _ h0), ih _ (fun k => v (k + 1)) hrest]
    congr 1
    refine State.ext_fields _ _ (by simp) (by simp) (by simp) (by simp [Nat.add_comm]) ?_ (by simp) (by simp)
    simp only [tickEvent_drawn, tickEvent_inbox, received_drawn, received_inbox, List.length_drop]
    omega

/-- Settles O19: every clause reads off the flag that a step leaves. -/
theorem flagWriters : Obligations.FlagWriters := by
  intro s
  obtain ⟨t, ht, hsrf⟩ := step_srf s
  refine ⟨t, ht, ?_⟩
  rw [hsrf]
  cases s.upcoming.rst
  · cases s.upcoming.tick
    · by_cases hclear : s.upcoming.cmd = some 0x03000000 ∧ s.mode = 0x01
      · simp [hclear]
      · simp_all
    · simp
  · simp

/-- Settles O41: STATUS is a register that is always implemented and never writable. -/
theorem statusView : Obligations.StatusView := by
  intro s
  constructor
  · rw [← readReg_status]
    exact exec_rd_regIndex s .status (by simp [isDebugReg])
  · intro imm
    exact exec_wr_of_not_writable s .status imm (by simp [isDebugReg]) rfl

/-- Settles O46, command by command. -/
theorem commandWriteTable : Obligations.CommandWriteTable := by
  intro s i
  obtain ⟨t, ht, hcfg, hpv, hinbox, hdrawn⟩ := exec_answers_next i s
  refine ⟨t, ht, ?_⟩
  simp only [hcfg, hpv, hinbox, hdrawn, true_and]
  cases exec_effect ht with
  | rejected => simp
  | setmode imm hst => simp [doReset_eq]
  | reset => simp [doReset_eq]
  | cycleWithLaw hdue => simp [controlLaw_toBlock, hdue]
  | cycleWithoutLaw hdue => simp
  | setout imm => simp
  | rd ra hst => simp
  | wr r imm hw hv => cases r <;> simp [writeReg, regIndex]

/-- Settles O17: every field of the reset state is written out in its definition. -/
theorem resetStateValues : Obligations.ResetStateValues := by
  simp [Obligations.ResetStateValues, State.reset, State.resetWith, Block.reset]

end Sys2Proof.Settled
end

section
/-! SUPPORT. Steps at one instant and placed instants: what a step is at an instant whose word decodes and at one where
nothing happens, and that taking an instant just placed undoes the placing (20_memory.md R60, R61). -/

namespace Sys2Proof.Machine

/-- The next instant is the oldest placed one. -/
theorem upcoming_of_inbox_cons {s : State} {p : Instant} {rest : List Instant} (h : s.inbox = p :: rest) : s.upcoming = p := by
  simp [State.upcoming, h]

theorem received_of_inbox_cons {s : State} {p : Instant} {rest : List Instant} (h : s.inbox = p :: rest) :
    s.received = { s with inbox := rest, pvIn := p.pvIn } := by
  simp [State.received, h]

/-- With none placed, the next instant is the environment's. -/
theorem upcoming_of_inbox_nil {s : State} (h : s.inbox = []) : s.upcoming = Config.environment s.drawn := by
  simp [State.upcoming, h]

theorem received_of_inbox_nil {s : State} (h : s.inbox = []) :
    s.received = { s with drawn := s.drawn + 1, pvIn := (Config.environment s.drawn).pvIn } := by
  simp [State.received, h]

/-- Without RST, a word that decodes runs its instruction, and a tick of the same instant then sets SRF. -/
theorem step_of_decode {s t : State} {w : Word} {i : Instr} (hrst : s.upcoming.rst = false)
    (hcmd : s.upcoming.cmd = some w) (hdecode : decode w = .ok i) (hexec : exec i s.received = .next t) :
    step s = .next (if s.upcoming.tick then tickEvent t else t) := by
  simp [step, instant, hrst, hcmd, commandIfAny, command, hdecode, hexec, thenTick]

/-- A step at an instant with no reset, no tick and no command only takes the instant. -/
theorem step_of_no_input {s : State} (hrst : s.upcoming.rst = false) (htick : s.upcoming.tick = false)
    (hcmd : s.upcoming.cmd = none) : step s = .next s.received := by
  simp [step, instant, hrst, htick, hcmd, commandIfAny, thenTick]

/-- An instant placed and then taken leaves the state as it was when its sample already stood on PV_IN. -/
theorem received_given {s : State} {p : Instant} (h : s.pvIn = p.pvIn) : (s.given p).received = s := by
  rw [given_received, ← h]

/-- The law neither reads nor writes the placed instants (41_cycle_control_law.md R133). -/
theorem controlLaw_given (s : State) (p : Instant) : controlLaw (s.given p) = (controlLaw s).given p := by
  apply State.ext_fields <;> simp [controlLaw_toBlock, State.given]

theorem lawIfDue_given (s : State) (p : Instant) : lawIfDue (s.given p) = (lawIfDue s).given p := by
  cases hdue : lawDue s.toBlock
  · rw [lawIfDue_of_not_due s hdue, lawIfDue_of_not_due (s.given p) hdue]
  · rw [lawIfDue_of_due s hdue, lawIfDue_of_due (s.given p) hdue]
    exact controlLaw_given (clearSrf s) p

/-- CYCLE does the same with one more instant placed, which is then still to come. -/
theorem exec_cycle_given {s t : State} (h : exec .cycle s = .next t) (p : Instant) :
    exec .cycle (s.given p) = .next (t.given p) := by
  cases h
  exact congrArg (fun u => Host.Outcome.next (respond .ok 0 u)) (lawIfDue_given (shiftMeasurement s) p)

/-- CYCLE with SRF = 1 in AUTO sends one value to the actuator (41_cycle_control_law.md R120 step 3). -/
theorem exec_cycle_actuates {s t : State} (h : exec .cycle s = .next t) (hsrf : s.srf = true) (hmode : s.mode = 0x01) :
    ∃ a, actuateTrace t.log = actuateTrace s.log ++ [a] := by
  cases exec_effect h with
  | rejected _ hst => exact absurd rfl hst
  | cycleWithLaw => simp
  | cycleWithoutLaw hdue => exact absurd ⟨hsrf, hmode⟩ hdue

end Sys2Proof.Machine
end

section
/-! PROOFS. The statements about the step and the ports (20_memory.md), settled. -/

namespace Sys2Proof.Settled

open Sys2Proof.Machine

/-- Settles O20: the instants of the tick and of the CYCLE, given apart, lead through the state that the CYCLE leaves with
the tick still placed. -/
theorem tickAtTheClearIsKept : Obligations.TickAtTheClearIsKept := by
  intro s v hsrf hmode hup
  have hdecode : decode 0x03000000 = .ok .cycle := (decode_eq_cycle_iff _).2 rfl
  have hpv : s.received.pvIn = v := by simp [hup]
  obtain ⟨u, hu, -, hupv, -⟩ := exec_answers_next .cycle s.received
  obtain ⟨a, ha⟩ := exec_cycle_actuates hu (by simpa using hsrf) (by simpa using hmode)
  have htogether : step s = .next (tickEvent u) := by
    simpa [hup] using step_of_decode (by rw [hup]) (by rw [hup]) hdecode hu
  have hcycle : step ((s.received.given (tickInstant v)).given (commandInstant 0x03000000 v)) =
      .next (u.given (tickInstant v)) := by
    refine step_of_decode rfl rfl hdecode ?_
    rw [received_given hpv]
    exact exec_cycle_given hu _
  have htick : step (u.given (tickInstant v)) = .next (tickEvent u) := by
    rw [step_tick _ v rfl, received_given (hupv.trans hpv)]
  refine ⟨tickEvent u, a, htogether, rfl, by simpa using ha, ?_⟩
  rw [run_succ 1 _ _ hcycle, run_succ 0 _ _ htick, run_zero]

/-- Settles O47, command by command: only CYCLE requests a sample, first of all, and each command ends in its response. -/
theorem sampleRequestedOncePerCycle : Obligations.SampleRequestedOncePerCycle := by
  intro s i
  obtain ⟨t, ht, -⟩ := exec_answers_next i s
  cases exec_effect ht with
  | rejected _ hst =>
    have hi : i ≠ .cycle := fun h => hst (h ▸ rfl)
    exact ⟨_, [.response (operandStatus s.cfg.hasDebug i) 0], ht, by simp, by simp [hi], by simp, fun h => absurd h hi⟩
  | setmode imm => exact ⟨_, [.response .ok 0], ht, by simp⟩
  | reset => exact ⟨_, [.response .ok 0], ht, by simp⟩
  | cycleWithLaw =>
    exact ⟨_, [.pvReq, .actuate (saturate s.cfg (lawU s.cfg (clearSrf (shiftMeasurement s)).toBlock)), .response .ok 0], ht,
      by simp⟩
  | cycleWithoutLaw => exact ⟨_, [.pvReq, .response .ok 0], ht, by simp⟩
  | setout imm =>
    exact ⟨_, [.actuate (saturate s.cfg (sext16 imm)), .response .ok ((saturate s.cfg (sext16 imm)).setWidth 64)], ht,
      by simp⟩
  | rd ra => exact ⟨_, [.response .ok (readIndex s ra)], ht, by simp⟩
  | wr r imm => exact ⟨_, [.response .ok 0], ht, by simp⟩

/-- Settles O14: the two sources of the next instant, and the step at an instant whose word decodes. -/
theorem stepRunsDecodedCommand : Obligations.StepRunsDecodedCommand := by
  refine ⟨fun s p rest h => ⟨upcoming_of_inbox_cons h, received_of_inbox_cons h⟩,
    fun s h => ⟨upcoming_of_inbox_nil h, received_of_inbox_nil h⟩, ?_⟩
  intro s w i hrst hcmd hdecode
  obtain ⟨t, ht, -⟩ := exec_answers_next i s.received
  exact ⟨t, ht, step_of_decode hrst hcmd hdecode ht⟩

/-- Settles O15: such a step only takes the instant. -/
theorem stepWithoutInputHolds : Obligations.StepWithoutInputHolds := by
  intro s hrst htick hcmd
  exact ⟨step_of_no_input hrst htick hcmd, by simp⟩

end Sys2Proof.Settled
end

section
/-! SUPPORT. Encoding against decoding and against the opcode map (30_encoding.md R71, R74, R76, R78), and the response in
which every command ends (R80). -/

namespace Sys2Proof.Machine

/-- An instruction's word decodes to it: no operand is lost (30_encoding.md R71, R73). -/
@[simp] theorem decode_encode (i : Instr) : decode (encode i) = .ok i := by
  cases i <;> simp [decode, encode]

theorem decode_eq_ok_iff (w : Word) (i : Instr) : decode w = .ok i ↔ w = encode i := by
  constructor
  · exact fun h => (encode_of_decode h).symm
  · rintro rfl
    exact decode_encode i

/-- The opcode alone decides whether a word is rejected for it (30_encoding.md R76). -/
theorem decode_eq_illegalOpcode_iff (w : Word) :
    decode w = .error .illegalOpcode ↔ ¬ (0x01 ≤ w.toNat / 2 ^ 24 ∧ w.toNat / 2 ^ 24 ≤ 0x06) := by
  rw [← opField_toNat]
  unfold decode
  split
  case h_6 hop => simp [hop]
  case h_7 => simp only [imp_false, true_iff] at *; omega
  all_goals
    next hop => split <;> simp [hop]

/-! The opcode map, field by field. -/

/-- The opcode map with its patterns and masks cut into fields: what it asks of the opcode, of `ra` and of `imm`
(30_encoding.md R74). -/
theorem opcodeTable_fields : opcodeTable =
    [⟨"SETMODE", packWord 0x01 0 0, packWord 0xFF 0xFF 0⟩, ⟨"RESET", packWord 0x02 0 0, packWord 0xFF 0xFF 0xFFFF⟩,
     ⟨"CYCLE", packWord 0x03 0 0, packWord 0xFF 0xFF 0xFFFF⟩, ⟨"SETOUT", packWord 0x04 0 0, packWord 0xFF 0xFF 0⟩,
     ⟨"RD", packWord 0x05 0 0, packWord 0xFF 0 0xFFFF⟩, ⟨"WR", packWord 0x06 0 0, packWord 0xFF 0 0⟩] := by
  decide

/-- A word selects a row exactly when each of its fields, masked, is the row's. -/
theorem selects_packWord (name : String) (op ra opMask raMask : Byte) (imm immMask : Half) (w : Word) :
    (OpcodeRow.mk name (packWord op ra imm) (packWord opMask raMask immMask)).selects w = true ↔
      opField w &&& opMask = op ∧ raField w &&& raMask = ra ∧ immField w &&& immMask = imm := by
  rw [← packWord_inj, ← packWord_and, packWord_fields]
  exact beq_iff_eq

theorem byte_and_ones (x : Byte) : x &&& 0xFF#8 = x := BitVec.and_allOnes

theorem half_and_ones (x : Half) : x &&& 0xFFFF#16 = x := BitVec.and_allOnes

/-- A word that selects a row is an instruction's word: the masks leave out only the operands (30_encoding.md R74). -/
theorem exists_encode_of_selects {r : OpcodeRow} (hr : r ∈ opcodeTable) {w : Word} (hw : r.selects w = true) :
    ∃ i, w = encode i := by
  rw [opcodeTable_fields] at hr
  simp only [List.mem_cons, List.not_mem_nil, or_false] at hr
  rw [← packWord_fields w]
  obtain rfl | rfl | rfl | rfl | rfl | rfl := hr
  · obtain ⟨hop, hra⟩ : opField w = 0x01 ∧ raField w = 0 := by simpa [selects_packWord, byte_and_ones] using hw
    exact ⟨.setmode (immField w), by rw [hop, hra]; rfl⟩
  · obtain ⟨hop, hra, himm⟩ : opField w = 0x02 ∧ raField w = 0 ∧ immField w = 0 := by
      simpa [selects_packWord, byte_and_ones, half_and_ones] using hw
    exact ⟨.reset, by rw [hop, hra, himm]; rfl⟩
  · obtain ⟨hop, hra, himm⟩ : opField w = 0x03 ∧ raField w = 0 ∧ immField w = 0 := by
      simpa [selects_packWord, byte_and_ones, half_and_ones] using hw
    exact ⟨.cycle, by rw [hop, hra, himm]; rfl⟩
  · obtain ⟨hop, hra⟩ : opField w = 0x04 ∧ raField w = 0 := by simpa [selects_packWord, byte_and_ones] using hw
    exact ⟨.setout (immField w), by rw [hop, hra]; rfl⟩
  · obtain ⟨hop, himm⟩ : opField w = 0x05 ∧ immField w = 0 := by
      simpa [selects_packWord, byte_and_ones, half_and_ones] using hw
    exact ⟨.rd (raField w), by rw [hop, himm]; rfl⟩
  · have hop : opField w = 0x06 := by simpa [selects_packWord, byte_and_ones] using hw
    exact ⟨.wr (raField w) (immField w), by rw [hop]; rfl⟩

/-- A rejected word selects no row (30_encoding.md R78). -/
theorem selectedRows_of_decode_error {w : Word} {e : DecodeError} (h : decode w = .error e) :
    opcodeTable.filter (fun r => r.selects w) = [] := by
  rw [List.filter_eq_nil_iff]
  intro r hr hsel
  obtain ⟨i, rfl⟩ := exists_encode_of_selects hr hsel
  simp at h

/-- An instruction's word selects one row, which carries its mnemonic (30_encoding.md R74, R78). -/
theorem selectedRows_encode (i : Instr) :
    ∃ r, opcodeTable.filter (fun r => r.selects (encode i)) = [r] ∧ r.name = mnemonic i := by
  rw [← List.map_eq_singleton_iff]
  cases i <;> simp [opcodeTable_fields, selects_packWord, encode, mnemonic]

/-! The response of a command. -/

@[simp] theorem statusCode_eq_zero_iff (st : Status) : statusCode st = 0x00 ↔ st = .ok := by
  cases st <;> simp [statusCode]

theorem statusCode_toNat_le (st : Status) : (statusCode st).toNat ≤ 0x05 := by
  cases st <;> simp [statusCode]

/-- From `s` to `t` the block answered once, last of all it emitted, and a rejection emitted nothing else and carries no
data (30_encoding.md R80). -/
def EndsInResponse (s t : State) : Prop :=
  ∃ out st d, t.log = s.log ++ out ++ [.response st d] ∧ responses out = [] ∧ (st ≠ .ok → d = 0 ∧ out = [])

theorem reject_endsInResponse (st : Status) (s : State) : EndsInResponse s (reject st s) :=
  ⟨[], st, 0, by simp⟩

/-- A command that emitted `out`, with no response among it, ends when it answers OK. -/
theorem respond_ok_endsInResponse {s u : State} (out : List PortEvent) (d : Dword) (hlog : u.log = s.log ++ out)
    (hout : responses out = []) : EndsInResponse s (respond .ok d u) :=
  ⟨out, .ok, d, by simp [hlog], hout, by simp⟩

theorem exec_endsInResponse {i : Instr} {s t : State} (h : exec i s = .next t) : EndsInResponse s t := by
  cases exec_effect h with
  | rejected => exact reject_endsInResponse _ s
  | setmode imm hst => exact respond_ok_endsInResponse [] 0 (by simp) rfl
  | reset => exact respond_ok_endsInResponse [] 0 (by simp) rfl
  | cycleWithLaw hdue =>
    exact respond_ok_endsInResponse [.pvReq, .actuate (saturate s.cfg (lawU s.cfg (clearSrf (shiftMeasurement s)).toBlock))] 0
      (by simp) rfl
  | cycleWithoutLaw hdue => exact respond_ok_endsInResponse [.pvReq] 0 rfl rfl
  | setout imm => exact respond_ok_endsInResponse [.actuate (saturate s.cfg (sext16 imm))] _ rfl rfl
  | rd ra hst => exact respond_ok_endsInResponse [] _ (by simp) rfl
  | wr r imm hw hv => exact respond_ok_endsInResponse [] 0 (by simp) rfl

/-- Every command word is answered, whether it decodes or not (30_encoding.md R80). -/
theorem command_endsInResponse (w : Word) (s : State) : ∃ t, command w s = .next t ∧ EndsInResponse s t := by
  unfold command
  cases decode w with
  | ok i =>
    obtain ⟨t, ht, -⟩ := exec_answers_next i s
    exact ⟨t, ht, exec_endsInResponse ht⟩
  | error e => exact ⟨_, rfl, reject_endsInResponse e.status s⟩

end Sys2Proof.Machine
end

section
/-! PROOFS. The statements about encoding and responses (30_encoding.md), settled. -/

namespace Sys2Proof.Settled

open Sys2Proof.Machine

/-- Settles O1: decoding and encoding undo each other. -/
theorem decodeEncodeAgree : Obligations.DecodeEncodeAgree := decode_eq_ok_iff

/-- Settles O2, by what the word decodes to. -/
theorem decodingIsTotal : Obligations.DecodingIsTotal := by
  intro w legalOp rows
  have hlegal : decode w ≠ .error .illegalOpcode → legalOp := not_imp_comm.1 (decode_eq_illegalOpcode_iff w).2
  cases hw : decode w with
  | error e =>
    have hrows : rows = [] := selectedRows_of_decode_error hw
    cases e with
    | illegalOpcode => exact Or.inl ⟨rfl, (decode_eq_illegalOpcode_iff w).1 hw, hrows⟩
    | reservedField => exact Or.inr (Or.inl ⟨rfl, hlegal (by simp [hw]), hrows⟩)
  | ok i =>
    obtain rfl := (decode_eq_ok_iff w i).1 hw
    obtain ⟨r, hrows, hname⟩ := selectedRows_encode i
    exact Or.inr (Or.inr ⟨i, r, rfl, hlegal (by simp [hw]), hrows, hname⟩)

/-- Settles O12: the step at such an instant is the command alone, and every command ends in its response. -/
theorem oneResponsePerCommand : Obligations.OneResponsePerCommand := by
  intro s w v hup
  obtain ⟨t, ht, out, st, d, hlog, hout, hrejected⟩ := command_endsInResponse w s.received
  exact ⟨t, out, st, d, (step_command s w v hup).trans ht, by simpa using hlog, hout, statusCode_toNat_le st,
    statusCode_eq_zero_iff st, hrejected⟩

/-- Settles O3: each word is its instruction's, and the operands read as the examples say. -/
theorem encodingExamples : Obligations.EncodingExamples := by
  simp only [Obligations.EncodingExamples, decode_eq_ok_iff]
  decide

/-- Settles O4: each expansion is the pseudo-instruction's definition, and its word is computed. -/
theorem pseudoInstructionWords : Obligations.PseudoInstructionWords := by
  unfold Obligations.PseudoInstructionWords
  decide

end Sys2Proof.Settled
end

section
/-! SUPPORT. The reserved words of a legal opcode (30_encoding.md R77), and what RESET, SETMODE and a CYCLE that runs the law
leave (40_mode_reset.md R100 to R105). -/

namespace Sys2Proof.Machine

/-! Reserved words. -/

/-- A word of a legal opcode that is no instruction's word is reserved (30_encoding.md R77). -/
theorem decode_eq_reservedField_of_forall_ne {w : Word} (hop : 0x01 ≤ w.toNat / 2 ^ 24 ∧ w.toNat / 2 ^ 24 ≤ 0x06)
    (hne : ∀ i, w ≠ encode i) : decode w = .error .reservedField := by
  cases hw : decode w with
  | ok i => exact absurd ((decode_eq_ok_iff w i).1 hw) (hne i)
  | error e =>
    cases e with
    | illegalOpcode => exact absurd hop ((decode_eq_illegalOpcode_iff w).1 hw)
    | reservedField => rfl

/-- Opcode 0x02 is RESET's alone (30_encoding.md R74). -/
theorem eq_reset_of_opcode {i : Instr} (h : (encode i).toNat / 2 ^ 24 = 0x02) : i = .reset := by
  rw [← opField_toNat] at h
  cases i <;> simp [encode] at h ⊢

/-- Opcode 0x01 is SETMODE's alone, whose `ra` is zero (30_encoding.md R74). -/
theorem raField_eq_zero_of_opcode_setmode {i : Instr} (h : (encode i).toNat / 2 ^ 24 = 0x01) : raField (encode i) = 0 := by
  rw [← opField_toNat] at h
  cases i <;> simp [encode] at h ⊢

/-! RESET. -/

theorem exec_reset (s : State) : exec .reset s = .next (respond .ok 0 (doReset s)) := rfl

/-- Clearing twice is clearing once. -/
theorem doReset_doReset (s : State) : doReset (doReset s) = doReset s := by
  cases hd : s.cfg.hasDebug <;> simp [doReset_eq, hd]

/-- The full reset neither reads nor writes SRF (40_mode_reset.md R102). -/
theorem doReset_setSrf (s : State) : doReset (setSrf s) = setSrf (doReset s) := by
  simp [doReset_eq, setSrf]

/-- The full reset neither reads nor writes the record of outputs. -/
theorem doReset_respond (st : Status) (d : Dword) (s : State) : doReset (respond st d s) = respond st d (doReset s) := by
  simp [doReset_eq, respond, emit]

/-! SETMODE. -/

/-- SETMODE with mode code 0 or 1 is accepted (40_mode_reset.md R103). -/
theorem exec_setmode_of_le {imm : Half} (h : imm.toNat ≤ 1) (s : State) :
    exec (.setmode imm) s = .next (setmode imm s) := by
  have hst : setmodeStatus imm = .ok := by rw [setmodeStatus_eq, if_neg (by omega)]
  simp only [exec, execSetmode, hst, runIfOk_ok]

/-- SETMODE with any other code is rejected (40_mode_reset.md R103). -/
theorem exec_setmode_of_lt {imm : Half} (h : 1 < imm.toNat) (s : State) :
    exec (.setmode imm) s = .next (reject .errRange s) := by
  have hst : setmodeStatus imm = .errRange := by rw [setmodeStatus_eq, if_pos h]
  simp only [exec, execSetmode, hst, runIfOk_reject _ _ _ (show Status.errRange ≠ .ok by decide)]

/-- A value that fits a byte is stored in an 8-bit register unchanged (40_mode_reset.md R103, 43_register_access.md R168). -/
theorem lowByte_toNat {imm : Half} (h : imm.toNat ≤ 255) : (imm.extractLsb' 0 8).toNat = imm.toNat := by
  rw [BitVec.extractLsb'_toNat, Nat.shiftRight_zero]
  omega

/-! The writers of MODE. -/

theorem setmode_le_of_status {imm : Half} (h : setmodeStatus imm = .ok) : imm.toNat ≤ 1 := by
  rw [setmodeStatus_eq] at h
  by_contra hlt
  rw [if_pos (by omega)] at h
  cases h

/-- A command writes MODE with its operand or leaves it, and only SETMODE and WR MODE write it (40_mode_reset.md R105). -/
theorem exec_mode {i : Instr} {s t : State} (h : exec i s = .next t) :
    t.mode = s.mode ∨
    (∃ m : Half, m.toNat ≤ 1 ∧ i = .setmode m ∧ t.mode.toNat = m.toNat) ∨
    (∃ v : Half, v.toNat ≤ 255 ∧ i = .wr 0x01 v ∧ t.mode.toNat = v.toNat) := by
  cases exec_effect h with
  | rejected => exact Or.inl rfl
  | setmode m hst =>
    have hm : m.toNat ≤ 1 := setmode_le_of_status hst
    exact Or.inr (Or.inl ⟨m, hm, rfl, lowByte_toNat (by omega)⟩)
  | reset => simp [doReset_eq]
  | cycleWithLaw => simp [controlLaw_toBlock]
  | cycleWithoutLaw => exact Or.inl rfl
  | setout imm => exact Or.inl rfl
  | rd ra => exact Or.inl rfl
  | wr r v hw hv =>
    cases r with
    | mode =>
      have hv255 : v.toNat ≤ 255 := of_decide_eq_true hv
      exact Or.inr (Or.inr ⟨v, hv255, rfl, lowByte_toNat hv255⟩)
    | _ => exact Or.inl rfl

/-- The same of the command of an instant, if there is one: a word that decodes to nothing leaves MODE. -/
theorem commandIfAny_mode {cmd : Option Word} {s t : State} (h : commandIfAny cmd s = .next t) (hne : t.mode ≠ s.mode) :
    ∃ w, cmd = some w ∧
      ((∃ m : Half, m.toNat ≤ 1 ∧ decode w = .ok (.setmode m) ∧ t.mode.toNat = m.toNat) ∨
       (∃ v : Half, v.toNat ≤ 255 ∧ decode w = .ok (.wr 0x01 v) ∧ t.mode.toNat = v.toNat)) := by
  cases cmd with
  | none => cases h; exact absurd rfl hne
  | some w =>
    simp only [commandIfAny, command] at h
    refine ⟨w, rfl, ?_⟩
    cases hw : decode w with
    | error e => rw [hw] at h; cases h; exact absurd rfl hne
    | ok i =>
      rw [hw] at h
      simpa using (exec_mode h).resolve_left hne

/-! The control law in ordinary integers. -/

/-- CYCLE with SRF = 1 in AUTO runs the law (41_cycle_control_law.md R120). -/
theorem exec_cycle_of_due {s : State} (hsrf : s.srf = true) (hmode : s.mode = 0x01) :
    exec .cycle s = .next (respond .ok 0 (controlLaw (clearSrf (shiftMeasurement s)))) := by
  have hdue : lawDue (shiftMeasurement s).toBlock = true := (lawDue_iff s.toBlock).2 ⟨hsrf, hmode⟩
  simp only [exec, execCycle, lawIfDue_of_due _ hdue]

/-- ERR_SUM after the law: the error added and the sum clamped (41_cycle_control_law.md R125). -/
theorem controlLaw_errSum_toInt (s : State) : (controlLaw s).errSum.toInt =
    max (-(s.cfg.maxErrorSum : Int))
      (min (s.errSum.toInt + ((s.setpoint.toNat : Int) - s.pv.toNat)) s.cfg.maxErrorSum) := by
  simp only [controlLaw_toBlock, newErrSum_store]
  exact clamp_eq_max_min _ _ _ (by omega)

/-- The captured integral term is the gain times the sum just stored (41_cycle_control_law.md R127, R132). -/
theorem controlLaw_dbgI_toInt {s : State} (hd : s.cfg.hasDebug = true) :
    (controlLaw s).dbgI.toInt = (s.gainI.toNat : Int) * (controlLaw s).errSum.toInt := by
  obtain ⟨-, -, hI, -⟩ := capture_exact s.cfg s.toBlock
  simp only [controlLaw_toBlock, hd, if_true, hI, newErrSum_store]
  exact smul_eq_mul _ _

/-- The captured derivative term is the gain times the change of the measurement (41_cycle_control_law.md R127, R132). -/
theorem controlLaw_dbgD_toInt {s : State} (hd : s.cfg.hasDebug = true) :
    (controlLaw s).dbgD.toInt = (s.gainD.toNat : Int) * ((s.pv.toNat : Int) - s.lastPv.toNat) := by
  obtain ⟨-, -, -, hD⟩ := capture_exact s.cfg s.toBlock
  simp only [controlLaw_toBlock, hd, if_true, hD]
  exact smul_eq_mul _ _

end Sys2Proof.Machine
end

section
/-! PROOFS. The statements about RESET and SETMODE (40_mode_reset.md), settled. -/

namespace Sys2Proof.Settled

open Sys2Proof.Machine

/-- Settles O23: the full reset field by field, and the only word of opcode 0x02. -/
theorem resetClearsHistory : Obligations.ResetClearsHistory := by
  refine ⟨rfl, ?_, ?_⟩
  · intro w hop hne
    refine decode_eq_reservedField_of_forall_ne (by omega) ?_
    rintro i rfl
    obtain rfl := eq_reset_of_opcode hop
    exact hne rfl
  · intro s
    rw [exec_reset, doReset_eq]
    rfl

/-- Settles O26: SETMODE's check splits the codes at 1 and 2, and the accepted ones reset before they set the mode. -/
theorem setmodeResetsThenSetsMode : Obligations.SetmodeResetsThenSetsMode := by
  refine ⟨rfl, rfl, ?_, fun s imm => ⟨fun hle => ?_, fun hlt => ?_⟩⟩
  · intro w hop hra
    refine decode_eq_reservedField_of_forall_ne (by omega) ?_
    rintro i rfl
    rw [← raField_toNat, raField_eq_zero_of_opcode_setmode hop] at hra
    exact hra rfl
  · rw [exec_setmode_of_le hle, setmode, doReset_eq]
    rfl
  · rw [exec_setmode_of_lt hlt]
    rfl

/-- Settles O27: short of a hard reset, the instant's command is all that can write MODE, and a tick does not. -/
theorem modeChangesOnlyBy : Obligations.ModeChangesOnlyBy := by
  intro s
  obtain ⟨t, ht, -, -, -, ⟨hrst, rfl⟩ | ⟨-, u, hu, rfl⟩⟩ := step_cases s
  · exact ⟨_, ht, fun _ => Or.inl hrst⟩
  · have htick : (if s.upcoming.tick then tickEvent u else u).mode = u.mode := by split <;> rfl
    refine ⟨_, ht, fun hne => Or.inr ?_⟩
    rw [htick] at hne ⊢
    exact commandIfAny_mode hu (by simpa using hne)

/-- Settles O28: SETMODE AUTO leaves SRF and zeros ERR_SUM and PV, so the CYCLE runs the law on the sample alone. -/
theorem firstCycleAfterSetmodeAuto : Obligations.FirstCycleAfterSetmodeAuto := by
  intro s hsrf
  have hmode : (setmode 1 s).mode = 0x01 := by simp
  have hsrf' : (setmode 1 s).srf = true := by simpa [doReset_eq] using hsrf
  refine ⟨_, _, exec_setmode_of_le (by decide) s, exec_cycle_of_due hsrf' hmode, ?_, ?_, ?_, ?_, fun hd => ?_⟩
  · simp [controlLaw_toBlock]
  · simp [controlLaw_toBlock, doReset_eq]
  · simp [controlLaw_toBlock, setmode]
  · simpa [setmode, doReset_eq] using controlLaw_errSum_toInt (clearSrf (shiftMeasurement (setmode 1 s)))
  · have hd' : (clearSrf (shiftMeasurement (setmode 1 s))).cfg.hasDebug = true := by simpa using hd
    constructor
    · simpa [setmode, doReset_eq] using controlLaw_dbgD_toInt hd'
    · simpa [setmode, doReset_eq] using controlLaw_dbgI_toInt hd'

/-- Settles O24: the full reset is idempotent and commutes with a tick and with a response. -/
theorem resetIdempotent : Obligations.ResetIdempotent := by
  intro s
  refine ⟨_, _, _, exec_reset s, exec_reset _, exec_reset (setSrf _), ?_, ?_, by simp, by simp⟩
  · simp only [respond_toBlock, doReset_respond, doReset_doReset]
  · simp only [respond_toBlock, doReset_setSrf, doReset_respond, doReset_doReset, setSrf_toBlock]

/-- Settles O25: the full reset writes none of these, and its response is no event of the actuator. -/
theorem resetLeavesTheRest : Obligations.ResetLeavesTheRest := by
  intro s
  exact ⟨_, exec_reset s, by simp [doReset_eq]⟩

end Sys2Proof.Settled
end

section
/-! SUPPORT. CYCLE and the control law in ordinary integers (41_cycle_control_law.md R120 to R137): what each value of the law
is, what it reads, and how ERR_SUM moves along control cycles. -/

namespace Sys2Proof.Machine

/-! CYCLE. -/

/-- Opcode 0x03 is CYCLE's alone (30_encoding.md R74). -/
theorem eq_cycle_of_opcode {i : Instr} (h : (encode i).toNat / 2 ^ 24 = 0x03) : i = .cycle := by
  rw [← opField_toNat] at h
  cases i <;> simp [encode] at h ⊢

/-- CYCLE with SRF = 0 or outside AUTO only shifts the measurement (41_cycle_control_law.md R120). -/
theorem exec_cycle_of_not_due {s : State} (h : ¬ (s.srf = true ∧ s.mode = 0x01)) :
    exec .cycle s = .next (respond .ok 0 (shiftMeasurement s)) := by
  have hdue : lawDue (shiftMeasurement s).toBlock = false := by
    rw [← Bool.not_eq_true, lawDue_iff]
    exact h
  simp only [exec, execCycle, lawIfDue_of_not_due _ hdue]

/-! The values of the law. -/

theorem newErrSum_eq (c : Config) (b : Block) : newErrSum c b =
    max (-(c.maxErrorSum : Int)) (min (b.errSum.toInt + ((b.setpoint.toNat : Int) - b.pv.toNat)) c.maxErrorSum) :=
  clamp_eq_max_min _ _ _ (by omega)

theorem pTerm_eq (b : Block) : pTerm b = (b.gainP.toNat : Int) * ((b.setpoint.toNat : Int) - b.pv.toNat) :=
  smul_eq_mul _ _

theorem iTerm_eq (c : Config) (b : Block) : iTerm c b = (b.gainI.toNat : Int) * newErrSum c b := smul_eq_mul _ _

theorem dTerm_eq (b : Block) : dTerm b = (b.gainD.toNat : Int) * ((b.pv.toNat : Int) - b.lastPv.toNat) :=
  smul_eq_mul _ _

theorem lawU_eq (c : Config) (b : Block) : lawU c b = Int.tdiv (pTerm b + iTerm c b + dTerm b) c.scalingFactor :=
  tdiv_eq_tdiv _ _

/-- OUTPUT after the law: the quotient saturated (41_cycle_control_law.md R129, R130). -/
theorem controlLaw_output_toNat (s : State) : ((controlLaw s).output.toNat : Int) =
    max (s.cfg.minOutput : Int) (min (lawU s.cfg s.toBlock) s.cfg.maxOutput) := by
  rw [controlLaw_toBlock]
  exact saturate_toNat _ _

/-- The four captures after the law, when they exist (41_cycle_control_law.md R132). -/
theorem controlLaw_captures {s : State} (hd : s.cfg.hasDebug = true) :
    (controlLaw s).dbgE.toInt = lawError s.toBlock ∧ (controlLaw s).dbgP.toInt = pTerm s.toBlock ∧
    (controlLaw s).dbgI.toInt = iTerm s.cfg s.toBlock ∧ (controlLaw s).dbgD.toInt = dTerm s.toBlock := by
  simpa only [controlLaw_toBlock, hd, if_true] using capture_exact s.cfg s.toBlock

/-! What the law reads (41_cycle_control_law.md R133). -/

/-- The block with every register that the law does not read at zero. -/
def lawInputs (b : Block) : Block where
  setpoint := b.setpoint
  gainP := b.gainP
  gainI := b.gainI
  gainD := b.gainD
  pv := b.pv
  lastPv := b.lastPv
  errSum := b.errSum

/-- Two states alike in the parameters and in what the law reads are alike in what it computes: ERR_SUM, OUTPUT and the
captures. -/
theorem controlLaw_congr {s t : State} (hcfg : s.cfg = t.cfg) (hin : lawInputs s.toBlock = lawInputs t.toBlock) :
    (controlLaw s).errSum = (controlLaw t).errSum ∧ (controlLaw s).output = (controlLaw t).output ∧
    (s.cfg.hasDebug = true → (controlLaw s).dbgE = (controlLaw t).dbgE ∧ (controlLaw s).dbgP = (controlLaw t).dbgP ∧
      (controlLaw s).dbgI = (controlLaw t).dbgI ∧ (controlLaw s).dbgD = (controlLaw t).dbgD) := by
  have hE : lawError s.toBlock = lawError t.toBlock := (congrArg lawError hin :)
  have hS : newErrSum t.cfg s.toBlock = newErrSum t.cfg t.toBlock := (congrArg (newErrSum t.cfg) hin :)
  have hP : pTerm s.toBlock = pTerm t.toBlock := (congrArg pTerm hin :)
  have hI : iTerm t.cfg s.toBlock = iTerm t.cfg t.toBlock := (congrArg (iTerm t.cfg) hin :)
  have hD : dTerm s.toBlock = dTerm t.toBlock := (congrArg dTerm hin :)
  have hU : lawU t.cfg s.toBlock = lawU t.cfg t.toBlock := (congrArg (lawU t.cfg) hin :)
  simp only [controlLaw_toBlock, hE, hS, hP, hI, hD, hU, hcfg]
  simp +contextual

/-! Rounding (41_cycle_control_law.md R136). -/

/-- A quotient that is not positive commands MIN_OUTPUT. -/
theorem saturate_toNat_of_nonpos (c : Config) {u : Int} (h : u ≤ 0) : (saturate c u).toNat = c.minOutput := by
  have hsat := saturate_toNat c u
  have hle := c.minOutput_le_maxOutput
  omega

/-- A sum below the divisor has no positive quotient: truncation takes the largest such sum to 0. -/
theorem tdiv_nonpos_of_lt {a b : Int} (hb : 0 < b) (h : a < b) : Int.tdiv a b ≤ 0 :=
  calc
    Int.tdiv a b ≤ Int.tdiv (b - 1) b := Int.tdiv_le_tdiv hb (by omega)
    _ = 0 := Int.tdiv_eq_zero_of_lt (by omega) (by omega)

/-! ERR_SUM along control cycles (41_cycle_control_law.md R137). -/

/-- The accumulator is symmetric in sign. -/
theorem accumulate_neg (c : Config) (acc e : Int) : accumulate c (-acc) (-e) = -accumulate c acc e := by
  simp only [accumulate, clamp_eq_max_min _ _ _ (show -(c.maxErrorSum : Int) ≤ c.maxErrorSum by omega)]
  omega

theorem foldl_accumulate_neg (c : Config) (es : List Int) (acc : Int) :
    (es.map fun e => -e).foldl (accumulate c) (-acc) = -es.foldl (accumulate c) acc := by
  induction es generalizing acc with
  | nil => rfl
  | cons e es ih => simp only [List.map_cons, List.foldl_cons, accumulate_neg, ih]

/-- Errors that are never negative drive the accumulator along their running sum up to the bound, and no further. -/
theorem foldl_accumulate_of_nonneg (c : Config) (es : List Int) (hes : ∀ e ∈ es, 0 ≤ e) (acc : Int)
    (hlo : -(c.maxErrorSum : Int) ≤ acc) (hhi : acc ≤ c.maxErrorSum) :
    es.foldl (accumulate c) acc = min (acc + es.sum) c.maxErrorSum := by
  induction es generalizing acc with
  | nil => simpa using hhi
  | cons e es ih =>
    obtain ⟨he, hrest⟩ := List.forall_mem_cons.1 hes
    obtain ⟨hlo', hhi'⟩ := accumulate_mem c acc e
    have hsum : 0 ≤ es.sum := List.sum_nonneg hrest
    have hacc : accumulate c acc e = min (acc + e) c.maxErrorSum := by
      rw [accumulate, clamp_eq_max_min _ _ _ (by omega)]
      omega
    rw [List.foldl_cons, List.sum_cons, ih hrest _ hlo' hhi', hacc]
    omega

/-- The same of errors that are never positive, down to the negative bound. -/
theorem foldl_accumulate_of_nonpos (c : Config) (es : List Int) (hes : ∀ e ∈ es, e ≤ 0) (acc : Int)
    (hlo : -(c.maxErrorSum : Int) ≤ acc) (hhi : acc ≤ c.maxErrorSum) :
    es.foldl (accumulate c) acc = max (acc + es.sum) (-(c.maxErrorSum : Int)) := by
  have hneg := foldl_accumulate_of_nonneg c (es.map fun e => -e)
    (List.forall_mem_map.2 fun e he => neg_nonneg.2 (hes e he)) (-acc) (by omega) (by omega)
  rw [foldl_accumulate_neg, ← List.sum_neg] at hneg
  omega

/-- An instant of a host that issues CYCLE once per tick, with `v` on PV_IN. -/
def tickedCycle (v : Byte) : Instant := { rst := false, tick := true, cmd := some (encode .cycle), pvIn := v }

/-- Such an instant runs the law on its sample and leaves SRF = 1 for the next one (20_memory.md R61). -/
theorem step_tickedCycle {s : State} {v : Byte} (hup : s.upcoming = tickedCycle v) (hsrf : s.srf = true)
    (hmode : s.mode = 0x01) : ∃ t, step s = .next t ∧ t.cfg = s.cfg ∧ t.setpoint = s.setpoint ∧ t.mode = 0x01 ∧
      t.srf = true ∧ t.errSum.toInt = accumulate s.cfg s.errSum.toInt ((s.setpoint.toNat : Int) - v.toNat) := by
  have hexec : exec .cycle s.received = _ := exec_cycle_of_due (by simpa using hsrf) (by simpa using hmode)
  have hstep := step_of_decode (by rw [hup]; rfl) (by rw [hup]; rfl) (decode_encode .cycle) hexec
  have htick : s.upcoming.tick = true := by rw [hup]; rfl
  have hpv : s.upcoming.pvIn = v := by rw [hup]; rfl
  rw [htick, if_pos rfl] at hstep
  refine ⟨_, hstep, by simp, by simp [controlLaw_toBlock], by simpa [controlLaw_toBlock] using hmode, by simp, ?_⟩
  simp only [tickEvent_toBlock, respond_toBlock, controlLaw_toBlock, newErrSum_store]
  simp [newErrSum, lawError, hpv]

/-- Over any number of them, ERR_SUM accumulates the errors one by one. -/
theorem run_tickedCycles (vs : List Byte) (s : State) (hsrf : s.srf = true) (hmode : s.mode = 0x01)
    (hfuture : ∀ (k : Nat) (v : Byte), vs[k]? = some v → s.future k = tickedCycle v) :
    ∃ t : State, Host.Core.run core vs.length s = .next t ∧ t.srf = true ∧ t.errSum.toInt =
      (vs.map fun v => (s.setpoint.toNat : Int) - v.toNat).foldl (accumulate s.cfg) s.errSum.toInt := by
  induction vs generalizing s with
  | nil => exact ⟨s, run_zero s, hsrf, rfl⟩
  | cons v vs ih =>
    obtain ⟨t, ht, hcfg, hset, hmode', hsrf', herr⟩ :=
      step_tickedCycle ((future_zero s).symm.trans (hfuture 0 v rfl)) hsrf hmode
    obtain ⟨u, hu, hsrfu, herru⟩ := ih t hsrf' hmode' fun k w hw => by
      rw [step_future s t ht]
      exact hfuture (k + 1) w (by simpa using hw)
    refine ⟨u, (run_succ _ _ _ ht).trans hu, hsrfu, ?_⟩
    rw [herru, hcfg, hset, herr, List.map_cons, List.foldl_cons]

end Sys2Proof.Machine
end

section
/-! PROOFS. The statements about CYCLE and the control law (41_cycle_control_law.md), settled. -/

namespace Sys2Proof.Settled

open Sys2Proof.Machine

/-- Settles O29: the only word of opcode 0x03, and the two sides of the guard. -/
theorem cycleGuard : Obligations.CycleGuard := by
  refine ⟨rfl, ?_, fun s => ⟨?_, ?_⟩⟩
  · intro w hop hne
    refine decode_eq_reservedField_of_forall_ne (by omega) ?_
    rintro i rfl
    obtain rfl := eq_cycle_of_opcode hop
    exact hne rfl
  · rintro ⟨hsrf, hmode⟩
    exact exec_cycle_of_due hsrf hmode
  · intro hnot
    have hdue : ¬ (s.srf = true ∧ s.mode = 0x01) := by rwa [not_and_or, Bool.not_eq_true]
    rw [exec_cycle_of_not_due hdue]
    congr 1
    apply State.ext_fields <;> simp

/-- Settles O30: the values of the law on the shifted measurement, each read back from where it is stored. -/
theorem cycleRunsControlLaw : Obligations.CycleRunsControlLaw := by
  intro s hsrf hmode e es p i d u
  have hS := controlLaw_errSum_toInt (clearSrf (shiftMeasurement s))
  have hO := controlLaw_output_toNat (clearSrf (shiftMeasurement s))
  simp only [lawU_eq, pTerm_eq, iTerm_eq, newErrSum_eq, dTerm_eq] at hO
  refine ⟨_, exec_cycle_of_due hsrf hmode, hS, hO, ?log, ?lastPv, ?pv, ?srf, ?captured, ?notCaptured, ?frame⟩
  case captured =>
    intro hd
    have hC := controlLaw_captures (s := clearSrf (shiftMeasurement s)) hd
    simp only [pTerm_eq, iTerm_eq, newErrSum_eq, dTerm_eq] at hC
    exact hC
  case notCaptured =>
    intro hd
    simp [controlLaw_toBlock, hd]
  all_goals simp [controlLaw_toBlock]

/-- Settles O31: steps 1 and 2 leave alike what the law reads. -/
theorem cycleIgnoresOtherState : Obligations.CycleIgnoresOtherState := by
  intro s t hcfg hpvIn hset hmode hsrf hgP hgI hgD hpv herr
  by_cases hdue : s.srf = true ∧ s.mode = 0x01
  · have hin : lawInputs (clearSrf (shiftMeasurement s)).toBlock = lawInputs (clearSrf (shiftMeasurement t)).toBlock := by
      simp [lawInputs, hset, hgP, hgI, hgD, hpvIn, hpv, herr]
    obtain ⟨hS, hO, hC⟩ := controlLaw_congr (s := clearSrf (shiftMeasurement s)) (t := clearSrf (shiftMeasurement t)) hcfg hin
    refine ⟨_, _, [.pvReq, .actuate (controlLaw (clearSrf (shiftMeasurement s))).output, .response .ok 0],
      exec_cycle_of_due hdue.1 hdue.2, exec_cycle_of_due (hsrf ▸ hdue.1) (hmode ▸ hdue.2), hS, ?srf, ?pv, ?lastPv, ?log,
      ?log', fun _ => ⟨hO, hC⟩⟩
    case log' =>
      rw [hO]
      simp [controlLaw_toBlock]
    all_goals simp [controlLaw_toBlock, hpvIn, hpv]
  · exact ⟨_, _, [.pvReq, .response .ok 0], exec_cycle_of_not_due hdue, exec_cycle_of_not_due (hsrf ▸ hmode ▸ hdue), herr,
      hsrf, hpvIn, hpv, by simp, by simp, fun h => absurd h hdue⟩

/-- Settles O32: the range of each value of the law, the bound of ERR_SUM taken at its largest. -/
theorem arithmeticNeverOverflows : Obligations.ArithmeticNeverOverflows := by
  intro s hbounded c b
  obtain ⟨hlo, hhi⟩ : -(c.maxErrorSum : Int) ≤ b.errSum.toInt ∧ b.errSum.toInt ≤ c.maxErrorSum := hbounded
  have hmax : (c.maxErrorSum : Int) ≤ 2 ^ 31 - 1 := by have := c.maxErrorSum_le; omega
  have hpv := b.pv.isLt
  have hlastPv := b.lastPv.isLt
  have hE := lawError_mem b
  have hP := pTerm_mem b
  have hI := iTerm_mem c b
  have hD := dTerm_mem b
  have hS := accumulate_mem c b.errSum.toInt (lawError b)
  have hU : (lawU c b).natAbs ≤ (lawSum c b).natAbs := by
    rw [lawU, tdiv_eq_tdiv]
    exact Int.natAbs_tdiv_le_natAbs _ _
  have hsum : lawSum c b = pTerm b + iTerm c b + dTerm b := rfl
  refine ⟨abs_le.2 hE, abs_le.2 (by omega), abs_le.2 (by omega), abs_le.2 hS, abs_le.2 hP, abs_le.2 hD,
    abs_le.2 (by omega), abs_le.2 (by omega), abs_lt.2 (by omega), ?_⟩
  rw [Int.abs_eq_natAbs, Int.abs_eq_natAbs]
  exact_mod_cast hU

/-- Settles O33: below the divisor neither rounding gives a positive quotient, and from 0 on the two agree. -/
theorem smallSumCommandsMinimum : Obligations.SmallSumCommandsMinimum := by
  intro c sum
  have hpos : (0 : Int) < c.scalingFactor := by exact_mod_cast c.one_le_scalingFactor
  rw [tdiv_eq_tdiv]
  refine ⟨fun hlt => saturate_toNat_of_nonpos c (tdiv_nonpos_of_lt hpos hlt), ?_⟩
  obtain hsum | hsum := le_or_gt 0 sum
  · rw [Int.fdiv_eq_tdiv_of_nonneg hsum hpos.le]
  · have htdiv : Int.tdiv sum c.scalingFactor ≤ 0 := tdiv_nonpos_of_lt hpos (hsum.trans hpos)
    have hfdiv : Int.fdiv sum c.scalingFactor ≤ 0 := (Int.fdiv_neg_of_neg_of_pos hsum hpos).le
    exact saturate_congr c _ _ (by omega)

/-- Settles O34: the cycles accumulate the errors one by one, and errors of one sign reach only the bound on their side. -/
theorem antiWindup : Obligations.AntiWindup := by
  rintro vs s ⟨hlo, hhi⟩ hsrf hmode hfuture total
  obtain ⟨t, ht, hsrf', herr⟩ := run_tickedCycles vs s hsrf hmode hfuture
  refine ⟨t, ht, hsrf', fun hbelow => ?_, fun habove => ?_⟩ <;> rw [herr]
  · refine foldl_accumulate_of_nonneg _ _ (List.forall_mem_map.2 fun v hv => ?_) _ hlo hhi
    have := hbelow v hv
    omega
  · refine foldl_accumulate_of_nonpos _ _ (List.forall_mem_map.2 fun v hv => ?_) _ hlo hhi
    have := habove v hv
    omega

/-- Settles O35: each value of the law at the scenario's registers. -/
theorem endToEndScenario : Obligations.EndToEndScenario := by
  intro s hscale hmax hmin hmaxOut hset hpv hlastPv herr hgP hgI hgD
  have hE : lawError s.toBlock = 10 := by simp [lawError, hset, hpv]
  have hP : pTerm s.toBlock = 20 := by simp [pTerm_eq, hset, hpv, hgP]
  have hS : newErrSum s.cfg s.toBlock = 10 := by
    simp only [newErrSum_eq, hset, hpv, herr, BitVec.reduceToInt, BitVec.reduceToNat]
    omega
  have hI : iTerm s.cfg s.toBlock = 10 := by simp [iTerm_eq, hS, hgI]
  have hD : dTerm s.toBlock = 0 := by simp [dTerm_eq, hpv, hlastPv]
  have hU : lawU s.cfg s.toBlock = 3 := by
    rw [lawU_eq, hP, hI, hD, hscale]
    rfl
  have hO : saturate s.cfg 3 = 3 := by
    apply BitVec.eq_of_toNat_eq
    have hsat := saturate_toNat s.cfg 3
    have hthree : (3 : Byte).toNat = 3 := rfl
    omega
  refine ⟨hE, hP, hI, hD, hU, ?_, ?_, ?_⟩
  · simp [controlLaw_toBlock, hS]
  · simp [controlLaw_toBlock, hU, hO]
  · simp [hU, hO]

/-- Settles O36: the term is the gain times the difference, and a gain that is not 0 is positive. -/
theorem derivativeSign : Obligations.DerivativeSign := by
  refine ⟨fun b hgain => ?_, fun b hgain hpv hlastPv => ?_, fun b hgain hpv hlastPv => ?_⟩
  · have hpos : (0 : Int) < b.gainD.toNat := by
      have hne : b.gainD.toNat ≠ 0 := BitVec.toNat_ne.1 hgain
      omega
    rw [dTerm_eq, Int.sign_mul, Int.sign_eq_one_of_pos hpos, one_mul]
  · simp [dTerm_eq, hgain, hpv, hlastPv]
  · simp [dTerm_eq, hgain, hpv, hlastPv]

end Sys2Proof.Settled
end

section
/-! SUPPORT. The output stage (42_output_stage.md R150, R151): saturation below, inside and above the range; and which words are
reserved for the field their command does not use (30_encoding.md R77). -/

namespace Sys2Proof.Machine

/-! Saturation. -/

/-- The stored byte is the clamp itself: no bit of it is lost (42_output_stage.md R150). -/
theorem saturate_toNat_eq_clamp (c : Config) (u : Int) : ((saturate c u).toNat : Int) = clamp u c.minOutput c.maxOutput := by
  rw [saturate_toNat, clamp_eq_max_min _ _ _ (by exact_mod_cast c.minOutput_le_maxOutput)]

/-- Inside the range the command is exact (42_output_stage.md R151 a). -/
theorem saturate_toNat_of_mem (c : Config) {u : Int} (hlo : (c.minOutput : Int) ≤ u) (hhi : u ≤ c.maxOutput) :
    ((saturate c u).toNat : Int) = u := by
  rw [saturate_toNat, min_eq_left hhi, max_eq_right hlo]

theorem saturate_toNat_of_le (c : Config) {u : Int} (h : u ≤ c.minOutput) : (saturate c u).toNat = c.minOutput := by
  have hsat := saturate_toNat c u
  have hle := c.minOutput_le_maxOutput
  omega

theorem saturate_toNat_of_ge (c : Config) {u : Int} (h : (c.maxOutput : Int) ≤ u) : (saturate c u).toNat = c.maxOutput := by
  have hsat := saturate_toNat c u
  have hle := c.minOutput_le_maxOutput
  omega

theorem saturate_toNat_mono (c : Config) {u v : Int} (h : u ≤ v) : (saturate c u).toNat ≤ (saturate c v).toNat := by
  zify
  rw [saturate_toNat, saturate_toNat]
  gcongr

/-- A saturated value is inside the range, where saturation is exact. -/
theorem saturate_saturate (c : Config) (u : Int) : saturate c ((saturate c u).toNat : Int) = saturate c u := by
  obtain ⟨hlo, hhi⟩ := saturate_mem c u
  apply BitVec.eq_of_toNat_eq
  exact_mod_cast saturate_toNat_of_mem c (Int.ofNat_le.2 hlo) (Int.ofNat_le.2 hhi)

/-! Reserved words. -/

/-- The commands of opcodes 0x01 to 0x04 do not use `ra` (30_encoding.md R74, R77). -/
theorem decode_eq_reservedField_of_ra {w : Word} (hop : 0x01 ≤ w.toNat / 2 ^ 24 ∧ w.toNat / 2 ^ 24 ≤ 0x04)
    (hra : w.toNat / 2 ^ 16 % 2 ^ 8 ≠ 0) : decode w = .error .reservedField := by
  refine decode_eq_reservedField_of_forall_ne (by omega) ?_
  rintro i rfl
  rw [← opField_toNat] at hop
  rw [← raField_toNat] at hra
  cases i <;> simp [encode] at hop hra

/-- RD does not use `imm` (30_encoding.md R74, R77). -/
theorem decode_rd_eq_reservedField_of_imm {w : Word} (hop : w.toNat / 2 ^ 24 = 0x05) (himm : w.toNat % 2 ^ 16 ≠ 0) :
    decode w = .error .reservedField := by
  refine decode_eq_reservedField_of_forall_ne (by omega) ?_
  rintro i rfl
  rw [← opField_toNat] at hop
  rw [← immField_toNat] at himm
  cases i <;> simp [encode] at hop himm

end Sys2Proof.Machine
end

section
/-! PROOFS. The statements about the output stage (42_output_stage.md), settled. -/

namespace Sys2Proof.Settled

open Sys2Proof.Machine

/-- Settles O37: the value stored and sent is the clamp, which fits its byte. -/
theorem setOutputSaturates : Obligations.SetOutputSaturates := by
  intro u s
  exact ⟨saturate s.cfg u, saturate_toNat_eq_clamp s.cfg u, rfl⟩

/-- Settles O38, note by note: each value named lies below, inside or above the range. -/
theorem saturationNotes : Obligations.SaturationNotes := by
  intro c
  have hle := c.minOutput_le_maxOutput
  have hmax := c.maxOutput_le
  refine ⟨?inside, ?exclusive, ?fullWidth, ?onePoint, saturate_mem c, ?boundaries, ?monotone, saturate_saturate c⟩
  case inside => exact fun u hlo hhi => saturate_toNat_of_mem c hlo hhi
  case exclusive =>
    rintro u ⟨habove, hbelow⟩
    omega
  case fullWidth => exact ⟨saturate_toNat_of_le c (by omega), saturate_toNat_of_ge c (by omega)⟩
  case onePoint =>
    intro heq u
    have hmem := saturate_mem c u
    omega
  case boundaries =>
    exact ⟨saturate_toNat_of_ge c (by omega), saturate_toNat_of_le c (by omega), saturate_toNat_of_ge c le_rfl,
      saturate_toNat_of_le c le_rfl⟩
  case monotone => exact fun u v h => saturate_toNat_mono c h

/-- Settles O39: the word's fields, and `set_output` of the immediate with the stored value as the answer. -/
theorem setoutCommand : Obligations.SetoutCommand := by
  refine ⟨?_, fun w hop hra => decode_eq_reservedField_of_ra (by omega) hra, ?_⟩
  · intro imm
    rw [encode, toNat_packWord]
    rfl
  · intro s imm
    refine ⟨saturate s.cfg (sext16 imm), saturate_toNat s.cfg (sext16 imm), ?_⟩
    rw [BitVec.ofNat_toNat]
    simp only [exec, execSetout]
    congr 1
    apply State.ext_fields <;> simp

/-- Settles O40: GETOUT is RD of a register that is always implemented. -/
theorem getoutReadsOutput : Obligations.GetoutReadsOutput := by
  refine ⟨rfl, fun w hw himm => decode_rd_eq_reservedField_of_imm (by omega) himm, fun s => ?_⟩
  rw [BitVec.ofNat_toNat]
  exact exec_rd_regIndex s .output (by simp [isDebugReg])

end Sys2Proof.Settled
end

section
/-! SUPPORT. Register access (43_register_access.md): which indices are rejected, what a write leaves to be read, and
registers read and written one after another. -/

namespace Sys2Proof.Machine

/-! Checks and indices. -/

/-- RD of an index that names no implemented register is rejected (43_register_access.md R165). -/
theorem exec_rd_of_not_implemented {s : State} {ra : Byte} (h : implementedReg s.cfg.hasDebug ra = none) :
    exec (.rd ra) s = .next (reject .errReg s) := by
  have hst : rdStatus s.cfg.hasDebug ra = .errReg := by simp only [rdStatus, h]
  simp only [exec, execRd, hst, runIfOk_reject _ _ _ (show Status.errReg ≠ .ok by decide)]

/-- WR is rejected with the first check that fails (43_register_access.md R168, 60_exceptions.md R188). -/
theorem exec_wr_of_status {s : State} {ra : Byte} {imm : Half} (st : Status)
    (hst : wrStatus s.cfg.hasDebug ra imm = st) (hne : st ≠ .ok) : exec (.wr ra imm) s = .next (reject st s) := by
  simp only [exec, execWr, hst, runIfOk_reject _ _ _ hne]

/-- An index of the register map, without the capture registers or with them, is the index of an implemented register
(10_state.md R29, R36). -/
theorem exists_reg_of_index {hd : Bool} {ra : Byte} (h : ra.toNat ≤ 0x09 ∨ (ra.toNat ≤ 0x0D ∧ hd = true)) :
    ∃ r, ra = regIndex r ∧ (isDebugReg r = true → hd = true) := by
  cases hr : implementedReg hd ra with
  | some r => exact ⟨r, (implementedReg_eq_some _ _ _).1 hr⟩
  | none =>
    obtain hge | ⟨hge, rfl⟩ := (implementedReg_eq_none _ _).1 hr
    · omega
    · obtain hle | ⟨-, ⟨⟩⟩ := h
      omega

/-- No capture register is writable (43_register_access.md R168). -/
theorem isDebugReg_of_regWritable {r : Reg} (h : regWritable r = true) : isDebugReg r = false := by
  revert h
  cases r <;> decide

/-- Well-formed operands of WR pass its checks (60_exceptions.md R188, R197). -/
theorem wrStatus_of_wellFormed {hd : Bool} {ra : Byte} {imm : Half} (h : WellFormed hd (.wr ra imm) = true) :
    wrStatus hd ra imm = .ok := by
  simp only [WellFormed, Bool.or_eq_true, Bool.and_eq_true, decide_eq_true_eq] at h
  rw [wrStatus_eq, if_neg (by omega), if_neg (by omega), if_neg (by omega)]

/-! What is read, and what a write leaves to be read. -/

/-- STATUS reads as the number of SRF (10_state.md R31). -/
theorem readReg_status_toNat (b : Block) : (readReg b .status).toNat = b.srf.toNat := by
  rw [readReg_status]
  cases b.srf <;> rfl

/-- The low bits of a value that was widened are the value (20_memory.md R58). -/
theorem extractLsb'_setWidth_self {n m : Nat} (x : BitVec n) (h : n ≤ m) : (x.setWidth m).extractLsb' 0 n = x := by
  rw [← BitVec.setWidth_eq_extractLsb' h, BitVec.setWidth_setWidth_of_le x h, BitVec.setWidth_eq]

/-- A byte fits an 8-bit register when it comes widened to WR's immediate (43_register_access.md R168, R171). -/
theorem zext16_setWidth_le (x : Byte) : zext16 (x.setWidth 16) ≤ 255 := by
  have hlt := x.isLt
  rw [zext16, BitVec.toNat_setWidth_of_le (by decide)]
  omega

/-- A writable register just written with a value in its range reads as that value (43_register_access.md R169 e). -/
theorem readReg_writeReg_toNat {r : Reg} {imm : Half} (hw : regWritable r = true) (hv : wrInRange r imm = true) (s : State) :
    (readReg (writeReg r imm s).toBlock r).toNat = imm.toNat := by
  cases r with
  | setpoint => exact (BitVec.toNat_setWidth_of_le (by decide)).trans (lowByte_toNat (of_decide_eq_true hv))
  | mode => exact (BitVec.toNat_setWidth_of_le (by decide)).trans (lowByte_toNat (of_decide_eq_true hv))
  | gainP | gainI | gainD => exact BitVec.toNat_setWidth_of_le (by decide)
  | _ => cases hw

/-! Commands back to back. -/

theorem execAll_cons {i : Instr} {s t : State} (h : exec i s = .next t) (is : List Instr) :
    execAll (i :: is) s = execAll is t := by
  simp only [execAll, h]

/-- Registers read one after another answer their values and change nothing else. -/
theorem execAll_rd (rs : List Reg) (s : State) (h : ∀ r ∈ rs, isDebugReg r = true → s.cfg.hasDebug = true) :
    execAll (rs.map fun r => .rd (regIndex r)) s =
      .next { s with log := s.log ++ rs.map fun r => .response .ok (readReg s.toBlock r) } := by
  induction rs generalizing s with
  | nil => simp [execAll]
  | cons r rs ih =>
    obtain ⟨hr, hrs⟩ := List.forall_mem_cons.1 h
    rw [List.map_cons, execAll_cons (exec_rd_regIndex s r hr), ih]
    · simp
    · exact hrs

/-- Registers written one after another with values in their ranges take them in that order. -/
theorem execAll_wr (ws : List (Reg × Half)) (s : State)
    (h : ∀ w ∈ ws, regWritable w.1 = true ∧ wrInRange w.1 w.2 = true) :
    execAll (ws.map fun w => .wr (regIndex w.1) w.2) s =
      .next (ws.foldl (fun t w => respond .ok 0 (writeReg w.1 w.2 t)) s) := by
  induction ws generalizing s with
  | nil => rfl
  | cons w ws ih =>
    obtain ⟨⟨hw, hv⟩, hws⟩ := List.forall_mem_cons.1 h
    rw [List.map_cons, execAll_cons (exec_wr_regIndex s w.1 w.2 hw hv), ih _ hws, List.foldl_cons]

end Sys2Proof.Machine
end

section
/-! PROOFS. The statements about register access (43_register_access.md), settled. -/

namespace Sys2Proof.Settled

open Sys2Proof.Machine

/-- Settles O42: an index names no implemented register, or one, and widening the value of that one keeps its number. -/
theorem readReturnsRegister : Obligations.ReadReturnsRegister := by
  refine ⟨fun ra => ?_, fun w hop himm => decode_rd_eq_reservedField_of_imm hop himm, fun s ra hra => ?_,
    fun s ra hra => ?_⟩
  · rw [encode, toNat_packWord]
    rfl
  · exact exec_rd_of_not_implemented ((implementedReg_eq_none _ _).2 hra)
  · obtain ⟨r, rfl, hdebug⟩ := exists_reg_of_index hra
    refine ⟨readReg s.toBlock r, exec_rd_regIndex s r hdebug, ?_⟩
    cases r with
    | status => simp [regIndex, readReg_status_toNat]
    | _ =>
      simp (disch := decide) [-BitVec.toNat_setWidth, regIndex, readReg, BitVec.toNat_setWidth_of_le,
        BitVec.toInt_signExtend_of_le]

/-- Settles O43: the five writes one by one, and each rejection by the first check that fails. -/
theorem writeStoresRegister : Obligations.WriteStoresRegister := by
  refine ⟨fun ra imm => ?_, fun s imm => ⟨fun himm => ⟨?_, ?_⟩, exec_wr_regIndex s .gainP imm rfl rfl,
    exec_wr_regIndex s .gainI imm rfl rfl, exec_wr_regIndex s .gainD imm rfl rfl, fun ra hra => ?notImplemented,
    fun ra hra => ?readOnly, fun ra hra himm => ?outOfRange⟩⟩
  · rw [encode, toNat_packWord]
    rfl
  · exact exec_wr_regIndex s .setpoint imm rfl (decide_eq_true himm)
  · exact exec_wr_regIndex s .mode imm rfl (decide_eq_true himm)
  case notImplemented =>
    have hnone := (implementedReg_eq_none _ _).2 hra
    exact exec_wr_of_status .errReg (by simp only [wrStatus, hnone]) (by decide)
  case readOnly =>
    have himpl := hra.imp And.right And.right
    exact exec_wr_of_status .errRo (by rw [wrStatus_eq, if_neg (not_not_intro himpl), if_pos (by omega)]) (by decide)
  case outOfRange =>
    exact exec_wr_of_status .errRange
      (by rw [wrStatus_eq, if_neg (by omega), if_neg (by omega), if_pos ⟨hra, himm⟩]) (by decide)

/-- Settles O44: an accepted WR names a writable register, which then reads as the value written. -/
theorem writeThenReadReturnsValue : Obligations.WriteThenReadReturnsValue := by
  intro s ra imm hwf
  obtain ⟨r, rfl, hw, hv⟩ := wrStatus_eq_ok (wrStatus_of_wellFormed hwf)
  have hdebug : isDebugReg r = true → (respond .ok 0 (writeReg r imm s)).cfg.hasDebug = true := by
    simp [isDebugReg_of_regWritable hw]
  refine ⟨_, _, _, exec_wr_regIndex s r imm hw hv, exec_rd_regIndex _ r hdebug, ?_, readReg_writeReg_toNat hw hv s, rfl⟩
  simp

/-- Settles O45: SAVE is five reads and LOAD five writes, and a byte widened and cut again is the byte. -/
theorem saveLoadRoundTrip : Obligations.SaveLoadRoundTrip := by
  refine ⟨fun s => ⟨_, _, _, _, _, execAll_rd [.setpoint, .mode, .gainP, .gainI, .gainD] s ?_, ?_⟩, fun nv s => ?_⟩
  · simp [isDebugReg]
  · simp [savedFrom, persistedOf, readReg, extractLsb'_setWidth_self]
  · have hload := execAll_wr [(.setpoint, nv.setpoint.setWidth 16), (.mode, nv.mode.setWidth 16), (.gainP, nv.gainP),
      (.gainI, nv.gainI), (.gainD, nv.gainD)] s ?_
    · refine hload.trans ?_
      simp [respond, emit, writeReg, extractLsb'_setWidth_self]
    · simp [regWritable, wrInRange, zext16_setWidth_le]

end Sys2Proof.Settled
end

section
/-! SUPPORT. The status of a command word and what the block answers with it (60_exceptions.md R181 to R188, R197): each
check as a range of the word's fields, and the one answer that a status allows. -/

namespace Sys2Proof.Machine

/-! The status of a word. -/

/-- The status that the checks on a command word give, made in the order of 60_exceptions.md R188. -/
def wordStatus (hasDebug : Bool) (w : Word) : Status :=
  match decode w with
  | .ok i => operandStatus hasDebug i
  | .error e => e.status

@[simp] theorem wordStatus_encode (hd : Bool) (i : Instr) : wordStatus hd (encode i) = operandStatus hd i := by
  simp [wordStatus]

theorem wordStatus_of_decode_error {hd : Bool} {w : Word} {e : DecodeError} (h : decode w = .error e) :
    wordStatus hd w = e.status := by
  simp [wordStatus, h]

theorem decodeError_status_ne_ok (e : DecodeError) : e.status ≠ .ok := by cases e <;> decide

/-- Operand checks give no status of the word's form (60_exceptions.md R188 steps 3 to 5). -/
theorem operandStatus_ne_decode_status (hd : Bool) (i : Instr) (e : DecodeError) : operandStatus hd i ≠ e.status := by
  have h : operandStatus hd i ≠ .errOpcode ∧ operandStatus hd i ≠ .errField := by
    cases i with
    | setmode imm => rw [operandStatus, setmodeStatus_eq]; split_ifs <;> simp
    | rd ra => rw [operandStatus, rdStatus_eq]; split_ifs <;> simp
    | wr ra imm => rw [operandStatus, wrStatus_eq]; split_ifs <;> simp
    | _ => simp [operandStatus]
  cases e
  · exact h.1
  · exact h.2

/-- A status of the word's form answers exactly the words that decoding rejects so (60_exceptions.md R182, R183). -/
theorem wordStatus_eq_decode_status_iff (hd : Bool) (w : Word) (e : DecodeError) :
    wordStatus hd w = e.status ↔ decode w = .error e := by
  cases hw : decode w with
  | ok i => simp [wordStatus, hw, operandStatus_ne_decode_status]
  | error e' => rw [wordStatus_of_decode_error hw]; cases e <;> cases e' <;> simp [DecodeError.status]

/-- The must-be-zero fields: `ra` of the opcodes 0x01 to 0x04, `imm` of RESET, CYCLE and RD (30_encoding.md R77). -/
theorem decode_eq_reservedField_iff (w : Word) : decode w = .error .reservedField ↔
    (1 ≤ w.toNat / 2 ^ 24 ∧ w.toNat / 2 ^ 24 ≤ 4 ∧ w.toNat / 2 ^ 16 % 2 ^ 8 ≠ 0) ∨
    ((w.toNat / 2 ^ 24 = 2 ∨ w.toNat / 2 ^ 24 = 3 ∨ w.toNat / 2 ^ 24 = 5) ∧ w.toNat % 2 ^ 16 ≠ 0) := by
  have hra : (raField w).toNat ≠ 0 ↔ raField w ≠ 0 := not_congr (BitVec.toNat_inj (y := 0))
  have himm : (immField w).toNat ≠ 0 ↔ immField w ≠ 0 := not_congr (BitVec.toNat_inj (y := 0))
  rw [← opField_toNat, ← raField_toNat, ← immField_toNat, hra, himm]
  unfold decode
  split
  case h_7 =>
    simp only [imp_false, reduceCtorEq, Except.error.injEq, false_iff] at *
    omega
  all_goals
    next hop => simp [hop, ← not_and_or]

/-! Which operands each check rejects. -/

theorem setmodeStatus_eq_errRange_iff (imm : Half) : setmodeStatus imm = .errRange ↔ 0x0002 ≤ imm.toNat := by
  simp [setmodeStatus_eq, Nat.succ_le_iff]

/-- SETMODE names no register, so it is rejected for its range alone (60_exceptions.md R188). -/
theorem setmodeStatus_eq_ok_or (imm : Half) : setmodeStatus imm = .ok ∨ setmodeStatus imm = .errRange := by
  rw [setmodeStatus_eq]
  split_ifs <;> simp

/-- RD writes nothing, so it is rejected for its index alone (60_exceptions.md R188). -/
theorem rdStatus_eq_ok_or (hd : Bool) (ra : Byte) : rdStatus hd ra = .ok ∨ rdStatus hd ra = .errReg := by
  rw [rdStatus_eq]
  split_ifs <;> simp

theorem rdStatus_eq_errReg_iff (hd : Bool) (ra : Byte) :
    rdStatus hd ra = .errReg ↔ 0x0E ≤ ra.toNat ∨ (0x0A ≤ ra.toNat ∧ hd = false) := by
  rw [← implementedReg_eq_none, rdStatus]
  cases implementedReg hd ra <;> simp

theorem wrStatus_eq_errReg_iff (hd : Bool) (ra : Byte) (imm : Half) :
    wrStatus hd ra imm = .errReg ↔ 0x0E ≤ ra.toNat ∨ (0x0A ≤ ra.toNat ∧ hd = false) := by
  rw [← implementedReg_eq_none, wrStatus]
  cases implementedReg hd ra with
  | none => simp
  | some r => simp only [reduceCtorEq, iff_false]; split_ifs <;> simp

theorem wrStatus_eq_errRo_iff (hd : Bool) (ra : Byte) (imm : Half) : wrStatus hd ra imm = .errRo ↔
    (0x05 ≤ ra.toNat ∧ ra.toNat ≤ 0x09) ∨ (hd = true ∧ 0x0A ≤ ra.toNat ∧ ra.toNat ≤ 0x0D) := by
  rw [wrStatus_eq]
  split_ifs <;> grind

theorem wrStatus_eq_errRange_iff (hd : Bool) (ra : Byte) (imm : Half) :
    wrStatus hd ra imm = .errRange ↔ (ra = 0x00 ∨ ra = 0x01) ∧ 0x0100 ≤ imm.toNat := by
  rw [wrStatus_eq, ← BitVec.toNat_inj, ← BitVec.toNat_inj]
  split_ifs <;> simp <;> omega

/-- WR of a writable register with a value in its range passes its checks (43_register_access.md R168). -/
theorem wrStatus_regIndex_eq_ok (hd : Bool) {r : Reg} {imm : Half} (hw : regWritable r = true) (hv : wrInRange r imm = true) :
    wrStatus hd (regIndex r) imm = .ok := by
  have hr : implementedReg hd (regIndex r) = some r :=
    (implementedReg_eq_some _ _ _).2 ⟨rfl, by simp [isDebugReg_of_regWritable hw]⟩
  simp [wrStatus, hr, hw, hv]

/-- The operand checks pass exactly for well-formed commands (60_exceptions.md R188, R197). -/
theorem operandStatus_eq_ok_iff (hd : Bool) (i : Instr) : operandStatus hd i = .ok ↔ WellFormed hd i = true := by
  cases i with
  | setmode imm =>
    rw [operandStatus, setmodeStatus_eq]
    simp only [WellFormed, Bool.or_eq_true, beq_iff_eq, ← BitVec.toNat_inj]
    split_ifs <;> simp <;> omega
  | rd ra => simp [operandStatus, rdStatus_eq, WellFormed, and_comm, -not_or]
  | wr ra imm =>
    refine ⟨fun h => ?_, wrStatus_of_wellFormed⟩
    obtain ⟨r, rfl, hw, hv⟩ := wrStatus_eq_ok h
    cases r with
    | setpoint | mode => simpa [WellFormed, regIndex, zext16] using of_decide_eq_true hv
    | gainP | gainI | gainD => simp [WellFormed, regIndex]
    | _ => cases hw
  | _ => simp [operandStatus, WellFormed]

/-- The first check that fails on a word with these fields, in the order opcode, must-be-zero fields, register implemented,
register writable, operand in range (60_exceptions.md R188). -/
def fieldStatus (hasDebug : Bool) (op ra imm : Nat) : Status :=
  if ¬ (1 ≤ op ∧ op ≤ 6) then .errOpcode
  else if (op ≤ 4 ∧ ra ≠ 0) ∨ ((op = 2 ∨ op = 3 ∨ op = 5) ∧ imm ≠ 0) then .errField
  else if 5 ≤ op ∧ ¬ (ra ≤ 0x09 ∨ (ra ≤ 0x0D ∧ hasDebug = true)) then .errReg
  else if op = 6 ∧ ¬ ra ≤ 0x04 then .errRo
  else if (op = 1 ∧ 1 < imm) ∨ (op = 6 ∧ ra ≤ 0x01 ∧ 255 < imm) then .errRange
  else .ok

/-- Decoding and the operand checks are R188's order on the fields of the word. -/
theorem wordStatus_eq_fieldStatus (hd : Bool) (w : Word) :
    wordStatus hd w = fieldStatus hd (w.toNat / 2 ^ 24) (w.toNat / 2 ^ 16 % 2 ^ 8) (w.toNat % 2 ^ 16) := by
  cases hw : decode w with
  | error e =>
    rw [wordStatus_of_decode_error hw, fieldStatus]
    cases e with
    | illegalOpcode => rw [if_pos ((decode_eq_illegalOpcode_iff w).1 hw), DecodeError.status]
    | reservedField =>
      have hfield := (decode_eq_reservedField_iff w).1 hw
      rw [if_neg (by omega), if_pos (by omega), DecodeError.status]
  | ok i =>
    obtain rfl := (decode_eq_ok_iff w i).1 hw
    rw [wordStatus_encode, ← opField_toNat, ← raField_toNat, ← immField_toNat]
    cases i with
    | setmode imm => simp [fieldStatus, encode, operandStatus, setmodeStatus_eq]
    | rd ra => simp [fieldStatus, encode, operandStatus, rdStatus_eq]
    | wr ra imm => simp [fieldStatus, encode, operandStatus, wrStatus_eq]
    | _ => simp [fieldStatus, encode, operandStatus]

/-! The answer of a command. -/

/-- From `s` to `t` the block answered once, with the status `st`: rejected, with nothing else done, or accepted, with its
response last of all it emitted and no rejection recorded (60_exceptions.md R181, R197). -/
inductive Answered (s : State) : Status → State → Prop
  | rejected {st : Status} (hst : st ≠ .ok) : Answered s st (reject st s)
  | accepted {t : State} (out : List PortEvent) (d : Dword) (hlog : t.log = s.log ++ out ++ [.response .ok d])
      (hout : responses out = []) (hfaults : t.faults = s.faults) : Answered s .ok t

theorem Answered.last {s t : State} {st : Status} (h : Answered s st t) :
    ∃ d, t.log.getLast? = some (.response st d) := by
  cases h with
  | rejected hst => exact ⟨0, by simp⟩
  | accepted out d hlog => exact ⟨d, by simp [hlog]⟩

theorem Answered.eq_reject {s t : State} {st : Status} (h : Answered s st t) (hst : st ≠ .ok) : t = reject st s := by
  cases h with
  | rejected => rfl
  | accepted => exact absurd rfl hst

theorem Answered.faults_of_ok {s t : State} (h : Answered s .ok t) : t.faults = s.faults := by
  cases h with
  | rejected hst => exact absurd rfl hst
  | accepted out d hlog hout hfaults => exact hfaults

/-- The state shows the status of the answer: its last response tells a rejection from every other answer. -/
theorem Answered.eq_reject_iff {s t : State} {st : Status} (h : Answered s st t) {st' : Status} (hst' : st' ≠ .ok) :
    t = reject st' s ↔ st = st' := by
  constructor
  · rintro rfl
    obtain ⟨d, hlast⟩ := h.last
    have heq : st' = st ∧ 0 = d := by simpa using hlast
    exact heq.1.symm
  · rintro rfl
    exact h.eq_reject hst'

/-- A command that emitted `out`, with no response among it, and recorded nothing is accepted when it answers OK. -/
theorem respond_ok_answered {s u : State} (out : List PortEvent) (d : Dword) (hlog : u.log = s.log ++ out)
    (hout : responses out = []) (hfaults : u.faults = s.faults) : Answered s .ok (respond .ok d u) :=
  .accepted out d (by simp [hlog]) hout hfaults

/-- A decoded command is answered with the status of its operand checks. -/
theorem exec_answered {i : Instr} {s t : State} (h : exec i s = .next t) :
    Answered s (operandStatus s.cfg.hasDebug i) t := by
  cases exec_effect h with
  | rejected _ hst => exact .rejected hst
  | setmode imm hst =>
    rw [operandStatus, hst]
    exact respond_ok_answered [] 0 (by simp) rfl (by simp)
  | reset => exact respond_ok_answered [] 0 (by simp) rfl (by simp)
  | cycleWithLaw =>
    exact respond_ok_answered [.pvReq, .actuate (saturate s.cfg (lawU s.cfg (clearSrf (shiftMeasurement s)).toBlock))] 0
      (by simp) rfl (by simp)
  | cycleWithoutLaw => exact respond_ok_answered [.pvReq] 0 rfl rfl rfl
  | setout imm => exact respond_ok_answered [.actuate (saturate s.cfg (sext16 imm))] _ rfl rfl rfl
  | rd ra hst =>
    rw [operandStatus, hst]
    exact respond_ok_answered [] _ (by simp) rfl rfl
  | wr r imm hw hv =>
    rw [operandStatus, wrStatus_regIndex_eq_ok _ hw hv]
    exact respond_ok_answered [] 0 (by simp) rfl (by simp)

/-- Every command word is answered with the status that R188's checks give it. -/
theorem command_answered (w : Word) (s : State) :
    ∃ t, command w s = .next t ∧ Answered s (wordStatus s.cfg.hasDebug w) t := by
  cases hw : decode w with
  | ok i =>
    obtain ⟨t, ht, -⟩ := exec_answers_next i s
    exact ⟨t, by simp only [command, hw, ht], by simpa only [wordStatus, hw] using exec_answered ht⟩
  | error e =>
    rw [wordStatus_of_decode_error hw]
    exact ⟨_, by simp only [command, hw], .rejected (decodeError_status_ne_ok e)⟩

/-- A decoded command is rejected with `st`, and does nothing else, exactly when its operand checks give `st`. -/
theorem exec_eq_reject_iff {i : Instr} {s : State} {st : Status} (hst : st ≠ .ok) :
    exec i s = .next (reject st s) ↔ operandStatus s.cfg.hasDebug i = st := by
  obtain ⟨t, ht, -⟩ := exec_answers_next i s
  rw [ht, Host.Outcome.next.injEq, (exec_answered ht).eq_reject_iff hst]

/-- A word that comes alone is rejected with `st`, and does nothing else, exactly when its checks give `st`. -/
theorem step_eq_reject_iff {s : State} {w : Word} {v : Byte} (hup : s.upcoming = commandInstant w v) {st : Status}
    (hst : st ≠ .ok) : step s = .next (reject st s.received) ↔ wordStatus s.cfg.hasDebug w = st := by
  obtain ⟨t, ht, hanswered⟩ := command_answered w s.received
  rw [step_command s w v hup, ht, Host.Outcome.next.injEq, hanswered.eq_reject_iff hst, received_cfg]

/-- The state that R182 to R186 describe is the one that the shared rejection leaves. -/
theorem reject_received (st : Status) (s : State) :
    reject st s.received = { s.received with log := s.log ++ [.response st 0], faults := s.faults ++ [st] } := by
  rw [← received_log, ← received_faults]
  rfl

end Sys2Proof.Machine
end

section
/-! PROOFS. The statements about rejection (60_exceptions.md R181 to R188, R197), settled. -/

namespace Sys2Proof.Settled

open Sys2Proof.Machine

/-- Settles O5: the status ERR_OPCODE is of the words that decoding rejects for their opcode. -/
theorem illegalOpcodeRejected : Obligations.IllegalOpcodeRejected := by
  refine ⟨rfl, fun s w v hup => ?_⟩
  rw [← reject_received, step_eq_reject_iff hup (by decide)]
  have hiff := wordStatus_eq_decode_status_iff s.cfg.hasDebug w .illegalOpcode
  rw [decode_eq_illegalOpcode_iff] at hiff
  exact hiff.trans (by omega)

/-- Settles O6: the status ERR_FIELD is of the words that decoding rejects for a must-be-zero field. -/
theorem reservedFieldRejected : Obligations.ReservedFieldRejected := by
  refine ⟨rfl, fun s w v hup => ?_⟩
  intro op ra imm
  rw [← reject_received, step_eq_reject_iff hup (by decide)]
  exact (wordStatus_eq_decode_status_iff s.cfg.hasDebug w .reservedField).trans (decode_eq_reservedField_iff w)

/-- Settles O7, command by command: RD and WR alone look an index up. -/
theorem unimplementedRegisterRejected : Obligations.UnimplementedRegisterRejected := by
  refine ⟨rfl, fun s i => (exec_eq_reject_iff (by decide)).trans ?_⟩
  cases i with
  | setmode imm => obtain h | h := setmodeStatus_eq_ok_or imm <;> simp [operandStatus, h]
  | rd ra => simp [operandStatus, rdStatus_eq_errReg_iff]
  | wr ra imm => simp [operandStatus, wrStatus_eq_errReg_iff]
  | _ => simp [operandStatus]

/-- Settles O8, command by command: WR alone asks whether a register is writable. -/
theorem readOnlyRegisterRejected : Obligations.ReadOnlyRegisterRejected := by
  refine ⟨rfl, fun s i => (exec_eq_reject_iff (by decide)).trans ?_⟩
  cases i with
  | setmode imm => obtain h | h := setmodeStatus_eq_ok_or imm <;> simp [operandStatus, h]
  | rd ra => obtain h | h := rdStatus_eq_ok_or s.cfg.hasDebug ra <;> simp [operandStatus, h]
  | wr ra imm => simp [operandStatus, wrStatus_eq_errRo_iff]
  | _ => simp [operandStatus]

/-- Settles O9, command by command: SETMODE and WR alone have a range. -/
theorem outOfRangeOperandRejected : Obligations.OutOfRangeOperandRejected := by
  refine ⟨rfl, fun s i => (exec_eq_reject_iff (by decide)).trans ?_⟩
  cases i with
  | setmode imm => simp [operandStatus, setmodeStatus_eq_errRange_iff]
  | rd ra => obtain h | h := rdStatus_eq_ok_or s.cfg.hasDebug ra <;> simp [operandStatus, h]
  | wr ra imm => simp [operandStatus, wrStatus_eq_errRange_iff, ← or_and_right, and_comm]
  | _ => simp [operandStatus]

/-- Settles O10: the word is answered with the status of its fields. -/
theorem checkOrder : Obligations.CheckOrder := by
  intro s w v hup op ra imm
  obtain ⟨t, ht, hanswered⟩ := command_answered w s.received
  obtain ⟨d, hlast⟩ := hanswered.last
  rw [wordStatus_eq_fieldStatus, received_cfg] at hlast
  exact ⟨t, d, (step_command s w v hup).trans ht, hlast⟩

/-- Settles O11: an answer with another status than OK is a rejection, which only responds and records. -/
theorem rejectionHasNoEffect : Obligations.RejectionHasNoEffect := by
  intro s w v hup
  obtain ⟨t, ht, hanswered⟩ := command_answered w s.received
  obtain ⟨d, hlast⟩ := hanswered.last
  refine ⟨t, _, d, (step_command s w v hup).trans ht, hlast, fun hst => ?_⟩
  rw [← reject_received]
  exact hanswered.eq_reject hst

/-- Settles O13: the answer carries the status of the operand checks, which pass for well-formed commands alone. -/
theorem wellFormedNeverRejected : Obligations.WellFormedNeverRejected := by
  intro s i
  obtain ⟨t, ht, -⟩ := exec_answers_next i s
  obtain ⟨d, hlast⟩ := (exec_answered ht).last
  exact ⟨t, _, d, ht, hlast, operandStatus_eq_ok_iff _ i⟩

end Sys2Proof.Settled
end

section
/-! SUPPORT. Ticks against commands (60_exceptions.md R194), and runs as iterated steps: what every step records of rejections,
and the run that a sequence of inputs gives (R180, R191, R197). -/

namespace Sys2Proof.Machine

/-! A tick before a command. -/

/-- A check that does not read SRF commutes with a tick when the command it lets run does. -/
theorem runIfOk_setSrf (st : Status) (run : State → State) (s : State) (h : run (setSrf s) = setSrf (run s)) :
    runIfOk st run (setSrf s) = setSrf (runIfOk st run s) := by
  unfold runIfOk
  split
  · exact h
  · rfl

/-- SRF shows in STATUS alone (10_state.md R31). -/
theorem readReg_setSrf {r : Reg} (h : r ≠ .status) (s : State) : readReg (setSrf s).toBlock r = readReg s.toBlock r := by
  cases r with
  | status => exact absurd rfl h
  | _ => rfl

theorem readIndex_setSrf {ra : Byte} (h : ra ≠ 0x09) (s : State) : readIndex (setSrf s) ra = readIndex s ra := by
  unfold readIndex
  rw [setSrf_cfg]
  cases hr : implementedReg s.cfg.hasDebug ra with
  | none => rfl
  | some r =>
    refine readReg_setSrf ?_ s
    rintro rfl
    exact h ((implementedReg_eq_some _ _ _).1 hr).1

theorem writeReg_setSrf (r : Reg) (imm : Half) (s : State) : writeReg r imm (setSrf s) = setSrf (writeReg r imm s) := by
  cases r <;> rfl

theorem writeIndex_setSrf (ra : Byte) (imm : Half) (s : State) :
    writeIndex ra imm (setSrf s) = setSrf (writeIndex ra imm s) := by
  unfold writeIndex
  rw [setSrf_cfg]
  cases implementedReg s.cfg.hasDebug ra with
  | none => rfl
  | some r => exact writeReg_setSrf r imm s

/-- A command that neither tests SRF nor shows it does the same before a tick and after it (60_exceptions.md R194 b). -/
theorem exec_setSrf {i : Instr} {s t : State} (hcycle : i ≠ .cycle) (hstatus : i ≠ .rd 0x09) (h : exec i s = .next t) :
    exec i (setSrf s) = .next (setSrf t) := by
  cases i with
  | cycle => exact absurd rfl hcycle
  | setmode imm =>
    cases h
    refine congrArg Host.Outcome.next (runIfOk_setSrf _ (setmode imm) s ?_)
    rw [setmode, doReset_setSrf]
    rfl
  | reset =>
    cases h
    rw [exec_reset, doReset_setSrf]
    rfl
  | setout imm => cases h; rfl
  | rd ra =>
    cases h
    have hra : ra ≠ 0x09 := fun h => hstatus (congrArg Instr.rd h)
    refine congrArg Host.Outcome.next (runIfOk_setSrf _ (fun t => respond .ok (readIndex t ra) t) s ?_)
    rw [readIndex_setSrf hra]
    rfl
  | wr ra imm =>
    cases h
    refine congrArg Host.Outcome.next (runIfOk_setSrf _ (fun t => respond .ok 0 (writeIndex ra imm t)) s ?_)
    rw [writeIndex_setSrf]
    rfl

/-- RD of STATUS answers SRF and changes nothing else (10_state.md R31). -/
theorem exec_rd_status (s : State) :
    exec (.rd 0x09) s = .next (respond .ok (if s.srf then 1 else 0) s) := by
  rw [← readReg_status]
  exact exec_rd_regIndex s .status (by simp [isDebugReg])

/-! The record of rejections along a step. -/

/-- What a step does to the record of rejections: nothing at a hard reset or without a command, else what the answer to the
instant's word says; a tick adds nothing. -/
inductive StepRecords (s t : State) : Prop
  | reset (hrst : s.upcoming.rst = true) (hfaults : t.faults = s.faults)
  | silent (hrst : s.upcoming.rst = false) (hcmd : s.upcoming.cmd = none) (hlog : t.log = s.log)
      (hfaults : t.faults = s.faults)
  | answered (hrst : s.upcoming.rst = false) (w : Word) (hcmd : s.upcoming.cmd = some w) (u : State)
      (hanswered : Answered s.received (wordStatus s.cfg.hasDebug w) u) (hlog : t.log = u.log) (hfaults : t.faults = u.faults)

theorem step_records {s t : State} (h : step s = .next t) : StepRecords s t := by
  obtain ⟨t', ht', -, -, -, ⟨hrst, rfl⟩ | ⟨hrst, u, hu, rfl⟩⟩ := step_cases s <;> rw [h] at ht' <;> cases ht'
  · exact .reset hrst (by simp)
  · have htick : (if s.upcoming.tick then tickEvent u else u).log = u.log ∧
        (if s.upcoming.tick then tickEvent u else u).faults = u.faults := by split <;> simp
    obtain ⟨hlog, hfaults⟩ := htick
    cases hcmd : s.upcoming.cmd with
    | none =>
      rw [hcmd] at hu
      cases hu
      exact .silent hrst hcmd (by simpa using hlog) (by simpa using hfaults)
    | some w =>
      obtain ⟨u', hu', hanswered⟩ := command_answered w s.received
      rw [hcmd, commandIfAny, hu'] at hu
      cases hu
      exact .answered hrst w hcmd _ (by simpa using hanswered) hlog hfaults

/-- An answer records the status of its response when that is not OK, and nothing else (60_exceptions.md R197). -/
theorem Answered.records {s t : State} {st : Status} (h : Answered s st t) :
    ∃ out new, t.log = s.log ++ out ∧ t.faults = s.faults ++ new ∧
      new.map statusCode = ((responses out).map Prod.fst).filter (fun c => c != 0x00) := by
  cases h with
  | rejected hst =>
    have hcode : statusCode st ≠ 0x00 := mt (statusCode_eq_zero_iff st).1 hst
    exact ⟨[.response st 0], [st], by simp, by simp, by simpa [List.filter_cons] using hcode⟩
  | accepted out d hlog hout hfaults =>
    exact ⟨out ++ [.response .ok d], [], by simpa using hlog, by simpa using hfaults, by simp [hout, statusCode]⟩

theorem Answered.faults_prefix {s t : State} {st : Status} (h : Answered s st t) : s.faults <+: t.faults := by
  obtain ⟨-, new, -, hfaults, -⟩ := h.records
  exact ⟨new, hfaults.symm⟩

/-- No step takes a rejection back, hard reset included. -/
theorem step_faults_prefix {s t : State} (h : step s = .next t) : s.faults <+: t.faults := by
  cases step_records h with
  | reset hrst hfaults => exact hfaults ▸ List.prefix_rfl
  | silent hrst hcmd hlog hfaults => exact hfaults ▸ List.prefix_rfl
  | answered hrst w hcmd u hanswered hlog hfaults => simpa [hfaults] using hanswered.faults_prefix

/-- A step whose command, if it has one, is well-formed records no rejection. -/
theorem step_faults_of_wellFormed {s t : State} (h : step s = .next t)
    (hwf : ∀ w, s.upcoming.cmd = some w → ∃ i, w = encode i ∧ WellFormed s.cfg.hasDebug i = true) :
    t.faults = s.faults := by
  cases step_records h with
  | reset hrst hfaults => exact hfaults
  | silent hrst hcmd hlog hfaults => exact hfaults
  | answered hrst w hcmd u hanswered hlog hfaults =>
    obtain ⟨i, rfl, hi⟩ := hwf w hcmd
    rw [wordStatus_encode, (operandStatus_eq_ok_iff _ i).2 hi] at hanswered
    simpa [hfaults] using hanswered.faults_of_ok

/-! Runs as iterated steps. -/

/-- The next state, as a function: every step answers one (`step_eq_nextState`). -/
def nextState (s : State) : State :=
  match step s with
  | .next t => t
  | .fault _ => s
  | .refused _ => s

theorem step_eq_nextState (s : State) : step s = .next (nextState s) := by
  obtain ⟨t, ht, -⟩ := step_cases s
  simp only [nextState, ht]

@[simp] theorem nextState_cfg (s : State) : (nextState s).cfg = s.cfg := by
  obtain ⟨t, ht, hcfg, -⟩ := step_cases s
  simpa only [nextState, ht] using hcfg

theorem future_nextState (s : State) (n : Nat) : (nextState s).future n = s.future (n + 1) :=
  step_future s _ (step_eq_nextState s) n

/-- A run is the step taken again and again: nothing stops it (60_exceptions.md R180). -/
theorem run_eq_iterate (k : Nat) (s : State) : Host.Core.run core k s = .next (nextState^[k] s) := by
  induction k generalizing s with
  | zero => exact run_zero s
  | succ k ih => rw [run_succ k s _ (step_eq_nextState s), ih, Function.iterate_succ_apply]

theorem step_iterate_nextState (k : Nat) (s : State) : step (nextState^[k] s) = .next (nextState^[k + 1] s) := by
  rw [Function.iterate_succ_apply']
  exact step_eq_nextState _

theorem iterate_nextState_cfg (k : Nat) (s : State) : (nextState^[k] s).cfg = s.cfg := by
  induction k generalizing s with
  | zero => rfl
  | succ k ih => rw [Function.iterate_succ_apply, ih, nextState_cfg]

/-- Each step takes one instant of the future. -/
theorem future_iterate_nextState (k : Nat) (s : State) (n : Nat) : (nextState^[k] s).future n = s.future (n + k) := by
  induction k generalizing s with
  | zero => rfl
  | succ k ih => rw [Function.iterate_succ_apply, ih, future_nextState, Nat.add_assoc]

/-- The run of the block under `inputs` (60_exceptions.md R191): each instant is placed and the step taken. -/
def runUnder (inputs : Nat → Instant) (s : State) : Nat → State
  | 0 => s
  | k + 1 => nextState ((runUnder inputs s k).given (inputs k))

theorem runUnder_isRun (inputs : Nat → Instant) (s : State) : IsRun inputs (runUnder inputs s) :=
  fun _ => step_eq_nextState _

/-- A tick that no reset coincides with leaves SRF = 1 (60_exceptions.md R190). -/
theorem step_srf_of_tick {s t : State} (h : step s = .next t) (hrst : s.upcoming.rst = false)
    (htick : s.upcoming.tick = true) : t.srf = true := by
  obtain ⟨t', ht', hsrf⟩ := step_srf s
  rw [h] at ht'
  cases ht'
  simpa [hrst, htick] using hsrf

end Sys2Proof.Machine
end

section
/-! PROOFS. The statements about ticks and about runs (60_exceptions.md R180, R191, R194, R197), settled. -/

namespace Sys2Proof.Settled

open Sys2Proof.Machine

/-- Settles O21: RD STATUS shows SRF, and every other command but CYCLE commutes with the tick. -/
theorem tickCommutesWithCommands : Obligations.TickCommutesWithCommands := by
  intro s i hcycle
  by_cases hstatus : i = .rd 0x09
  · subst hstatus
    refine ⟨_, _, exec_rd_status s, exec_rd_status (setSrf s), fun h => absurd rfl h, fun _ => ⟨rfl, rfl, ?_⟩⟩
    cases s.srf
    · exact Or.inl rfl
    · exact Or.inr rfl
  · obtain ⟨t, ht, -⟩ := exec_answers_next i s
    exact ⟨t, _, ht, exec_setSrf hcycle hstatus ht, fun _ => rfl, fun h => absurd h hstatus⟩

/-- Settles O22: the run of `k` steps is the step taken `k` times. -/
theorem everyRunCompletes : Obligations.EveryRunCompletes :=
  fun k s => ⟨_, run_eq_iterate k s, iterate_nextState_cfg k s, future_iterate_nextState k s⟩

/-- Settles O52: what a step records, and that no step of a run takes a rejection back. -/
theorem rejectionsAreRecorded : Obligations.RejectionsAreRecorded := by
  refine ⟨fun s => ⟨_, step_eq_nextState s, ?_⟩, fun k s => ?_⟩
  · cases step_records (step_eq_nextState s) with
    | reset hrst hfaults => exact ⟨fun _ => hfaults, by simp [hrst]⟩
    | silent hrst hcmd hlog hfaults =>
      exact ⟨by simp [hrst], fun _ => ⟨[], [], by simpa using hlog, by simpa using hfaults, rfl⟩⟩
    | answered hrst w hcmd u hanswered hlog hfaults =>
      exact ⟨by simp [hrst], fun _ => by simpa [hlog, hfaults] using hanswered.records⟩
  · have hstep : ∀ t, s.faults <+: t.faults → ∃ u, step t = .next u ∧ s.faults <+: u.faults :=
      fun t ht => ⟨_, step_eq_nextState t, ht.trans (step_faults_prefix (step_eq_nextState t))⟩
    obtain ⟨t, ht, hprefix⟩ := run_keeps (fun t => s.faults <+: t.faults) hstep k s List.prefix_rfl
    refine ⟨t, ht, hprefix, fun hnone => ?_⟩
    rw [NoRejection] at hnone
    exact List.prefix_nil.1 (hnone ▸ hprefix)

/-- Settles O53, by induction on the length of the run: the first step records nothing, and what is left of the future is
again well-formed. -/
theorem wellFormedProgramKeepsNoRejection : Obligations.WellFormedProgramKeepsNoRejection := by
  intro n
  induction n with
  | zero => exact fun s _ => ⟨s, run_zero s, rfl⟩
  | succ n ih =>
    intro s hwf
    have hstep := step_eq_nextState s
    have hfirst : (nextState s).faults = s.faults :=
      step_faults_of_wellFormed hstep (by simpa [future_zero] using hwf 0 n.succ_pos)
    obtain ⟨t, ht, hrest⟩ := ih (nextState s) fun k hk => by
      simpa [future_nextState] using hwf (k + 1) (Nat.succ_lt_succ hk)
    exact ⟨t, (run_succ n s _ hstep).trans ht, hrest.trans hfirst⟩

/-- Settles O54: the run under given inputs places them one by one, and the machine's own run iterates the step. -/
theorem everyInputSequenceIsARun : Obligations.EveryInputSequenceIsARun := by
  refine ⟨fun inputs s => ⟨runUnder inputs s, rfl, runUnder_isRun inputs s, fun k hrst htick => ?_⟩,
    fun s => ⟨fun k => nextState^[k] s, rfl, fun k => ⟨step_iterate_nextState k s, ?upcoming, run_eq_iterate k s⟩⟩⟩
  · exact step_srf_of_tick (runUnder_isRun inputs s k) hrst htick
  case upcoming => rw [← future_zero, future_iterate_nextState, Nat.zero_add]

end Sys2Proof.Settled
end

section
/-! SUPPORT and PROOFS. The step at an instant with hard reset (70_reset_and_hazards.md R210, 10_state.md R37), and the
statement about it, settled. -/

namespace Sys2Proof.Machine

/-- RST wins over the tick and the command of its instant: neither is looked at (70_reset_and_hazards.md R210). -/
theorem step_of_rst {s : State} (hrst : s.upcoming.rst = true) : step s = .next (hardReset s.received) := by
  simp [step, instant, hrst]

end Sys2Proof.Machine

namespace Sys2Proof.Settled

open Sys2Proof.Machine

/-- Settles O16: the step is the hard reset of the state with the instant taken, and field by field that is the state
written out. -/
theorem hardResetZeroesEverything : Obligations.HardResetZeroesEverything := by
  intro s hrst
  rw [step_of_rst hrst]
  congr 1
  apply State.ext_fields <;> simp [Block.reset]

end Sys2Proof.Settled
end
